-- ==== Sys2Proof/Word.lean ====
section
/-! DEFINITION. The word types of the command interface. -/

namespace Sys2Proof

/-- One byte of a payload, of a record (20_memory.md R61) or of a serialised word (R62). -/
abbrev Byte := BitVec 8

/-- A 32-bit word of the interface: a command word, INIT's operand or a response value (20_memory.md R62). -/
abbrev Word := BitVec 32

end Sys2Proof
end

