-- ==== Sys2Proof/Config.lean ====
section
/-! DEFINITION. The parameters of the block (00_scope.md R8), what the environment may do next, and the free values. -/

namespace Sys2Proof

/-- The parameters a model takes as arguments (00_scope.md R8). FREQ_W, LEN_W and DROP_W are fixed (R9) and stand in the
types. -/
structure Params where
  /-- QCAP, the queue's capacity in records. -/
  qcap : Nat
  /-- REC, the record size in bytes. -/
  recBytes : Nat
  /-- DIV_A, the ratio of the first divider. -/
  divA : Nat
  /-- DIV_B, the ratio of the second divider. -/
  divB : Nat
  /-- BASE_RATE_HZ. -/
  baseRateHz : Nat
  /-- TW, the width of the timer in bits. -/
  tw : Nat
  /-- SIG_LIMIT, the largest count of a signal. -/
  sigLimit : Nat
  /-- REARM_MAY_FAIL: a re-arm may fail for a device cause (41_tick.md R139). -/
  rearmMayFail : Bool
  /-- ISR_LATENCY_BOUND (41_tick.md R144). -/
  latencyBound : Option Nat
  deriving DecidableEq, Repr

/-- The values of 00_scope.md R8. The two OPEN ones are those of the spec's examples (95_test_vectors.md's opening):
DESIGN CHOICE, unsafe for a claim about this value alone (log 1). -/
def Params.spec : Params where
  qcap := 16
  recBytes := 32
  divA := 10
  divB := 100
  baseRateHz := 1000
  tw := 32
  sigLimit := 2 ^ 32 - 1
  rearmMayFail := false
  latencyBound := none

/-- The constraints of 00_scope.md R9. -/
def Params.wf (p : Params) : Bool :=
  1 ≤ p.qcap && 1 ≤ p.recBytes && 1 ≤ p.divA && 1 ≤ p.divB && 1 ≤ p.baseRateHz && 8 ≤ p.tw && p.tw ≤ 32 && 1 ≤ p.sigLimit

/-- One turn: what the environment does, or which agent it lets take its step (20_memory.md R67, 30_encoding.md R100). -/
inductive Turn where
  /-- The timer takes a TIMER_COUNT step (41_tick.md R130). -/
  | count
  /-- The alarm's tick service takes a TICK step (41_tick.md R133). -/
  | service
  /-- A caller puts a command on its port (30_encoding.md R80). -/
  | issue (caller : Nat) (bytes : List Byte)
  /-- The block takes the step of a caller's outstanding command, if that command has one (00_scope.md R13). -/
  | serve (caller : Nat)
  /-- DEVICE_READY takes a level (30_encoding.md R100). -/
  | ready (level : Bool)
  /-- Reset, with the counter's draw (70_reset_and_hazards.md R240, R242). -/
  | reset (draw : Nat)
  deriving DecidableEq, Repr, Inhabited

/-! Free values: nothing evaluates them, and no statement rests on what they are. Each is applied to a counter of State. -/

/-- A padding byte of a short record, `draw_byte()` (42_queue.md R163; log 9). Free value, safe. -/
opaque Config.freeByte : Nat → Byte

/-- The timer device refuses a re-arm, `draw_bool()` (41_tick.md R139; log 10). Free value, safe. -/
opaque Config.freeBool : Nat → Bool

/-- The turn taken when the agenda holds none: the order of steps is free (20_memory.md R67; log 4). Free value, safe. -/
opaque Config.freeTurn : Nat → Turn

end Sys2Proof
end

