-- ==== Sys2Proof/Machine/State.lean ====
section
/-! DEFINITION. The machine's state: the spec's record `S` (10_state.md R20), the callers, parameters and inputs beside
it, and the model's own bookkeeping. -/

namespace Sys2Proof.Machine

/-- `S.state`, the life cycle of the rate generator (10_state.md R21). -/
inductive Life where
  | uninit
  | running
  | halted
  | cfgfail
  deriving DecidableEq, Repr

/-- `S.err`, the cause of a fatal condition (10_state.md R22, 30_encoding.md R92). -/
inductive ErrCode where
  | none
  | deviceNotReady
  | rateZero
  | rateOverflow
  | rearmLate
  | rearmDevice
  deriving DecidableEq, Repr

/-- The response status codes, and no others (30_encoding.md R90). -/
inductive Status where
  | ok
  | full
  | errIllegal
  | errContext
  | errState
  | errDeviceNotReady
  | errRateZero
  | errRateOverflow
  deriving DecidableEq, Repr

/-- A response: status, value, and for a completed DEQ the record (30_encoding.md R89). -/
structure Response where
  status : Status
  value : Word
  data : Option (List Byte)
  deriving DecidableEq, Repr

/-- The spec's state record `S`, exactly the fields of 10_state.md R20. TW-bit fields are numbers that each write reduces
modulo `2^TW` (log 13). -/
structure Block where
  /-- `S.state` (R21). -/
  state : Life
  /-- `S.err` (R22). -/
  err : ErrCode
  /-- `S.period`, counts per base period (R23). -/
  period : Nat
  /-- `S.now`, the timer's counter (R24). -/
  now : Nat
  /-- `S.deadline`, the alarm (R25). -/
  deadline : Nat
  /-- `S.tick_pending` (R26). -/
  tickPending : Bool
  /-- `S.elapsed`, counts since the pending expiry (R27). -/
  elapsed : Nat
  /-- `S.cnt10`, the source's `div_100` (R28). -/
  cnt10 : Nat
  /-- `S.cnt100`, the source's `div_10` (R29). -/
  cnt100 : Nat
  /-- `S.sig[BASE]` (R30). -/
  sigBase : Nat
  /-- `S.sig[D10]` (R30). -/
  sigD10 : Nat
  /-- `S.sig[D100]` (R30). -/
  sigD100 : Nat
  /-- `S.queue`, records oldest first (R31). -/
  queue : List (List Byte)
  /-- `S.drop` (R32). -/
  drop : BitVec 32
  deriving DecidableEq, Repr

/-- A caller's port: its one outstanding command, in bytes (30_encoding.md R80, 10_state.md R37.2). A held command is one
whose port stays occupied. -/
structure Port where
  caller : Nat
  cmd : List Byte
  deriving DecidableEq, Repr

/-- A response delivered to the caller whose command it ends (30_encoding.md R80, R89). -/
structure Answer where
  caller : Nat
  response : Response
  deriving DecidableEq, Repr

/-- The whole machine. `blk` is the spec's `S`; the other fields are what the spec keeps beside it (10_state.md R37, R38) and
the model's own bookkeeping (log 4, 8, 9). -/
structure State where
  /-- The parameters the block is built with (00_scope.md R8). No step writes them (log 1). -/
  params : Params
  /-- The spec's state record `S` (10_state.md R20). -/
  blk : Block
  /-- The environment input DEVICE_READY (00_scope.md R8; log 3). -/
  deviceReady : Bool
  /-- The outstanding commands, in order of issue (10_state.md R37.2; log 5). -/
  callers : List Port
  /-- Model: the turns already chosen, soonest first (log 4). -/
  agenda : List Turn
  /-- Model: how many free values have been drawn (log 9). -/
  draws : Nat
  /-- Model: what the latest step answered, if it answered (log 8). -/
  response : Option Response
  /-- Model: every response delivered, newest first (log 8). -/
  answers : List Answer
  deriving DecidableEq, Repr

/-- Why the machine stops with a fault: never. The block raises no trap (00_scope.md R13) and a fatal condition is a state it
stays in and answers from (41_tick.md R140, 60_exceptions.md R225), so this type has no constructor (log 15). -/
inductive Fault where
  deriving DecidableEq, Repr

/-- Why a step is refused. -/
inductive Refusal where
  /-- Raised by `exec` for an instruction without a meaning; no instruction is one. Safe. -/
  | notModelled (mnemonic : String)
  /-- Raised by the transcriber: bytes that are not one command word and exactly the operands it declares are not a
  command (30_encoding.md R88, D42). Safe. -/
  | notACommand
  deriving DecidableEq, Repr

/-- `S` after reset, `draw` being the counter's unspecified value (70_reset_and_hazards.md R240, R242). -/
def Block.reset (draw : Nat) : Block where
  state := .uninit
  err := .none
  period := 0
  now := draw
  deadline := 0
  tickPending := false
  elapsed := 0
  cnt10 := 0
  cnt100 := 0
  sigBase := 0
  sigD10 := 0
  sigD100 := 0
  queue := []
  drop := 0

/-- The machine right after reset, built with parameters `p`, the counter drawn as `draw`, the environment about to take the
turns of `agenda`, and no command outstanding (70_reset_and_hazards.md R240). -/
def State.resetWith (p : Params) (draw : Nat) (ready : Bool) (agenda : List Turn) : State where
  params := p
  blk := Block.reset (draw % 2 ^ p.tw)
  deviceReady := ready
  callers := []
  agenda := agenda
  draws := 0
  response := none
  answers := []

/-- The machine right after reset with the spec's parameters. The counter's draw is 0 and DEVICE_READY is true: DESIGN CHOICE,
unsafe (log 2, 3); `resetWith` is the reset for every draw and level. -/
def State.reset : State := State.resetWith Params.spec 0 true []

end Sys2Proof.Machine
end

