-- ==== Sys2Proof/Machine/Flags.lean ====
section
/-! DEFINITION. The flag-like outputs of the block (10_state.md R36): status codes, cause codes and the STATUS view. -/

namespace Sys2Proof.Machine

/-- The value of `S.state` (10_state.md R20). -/
def Life.code : Life → BitVec 2
  | .uninit => 0
  | .running => 1
  | .halted => 2
  | .cfgfail => 3

/-- The value of `S.err` (30_encoding.md R92). -/
def ErrCode.code : ErrCode → BitVec 8
  | .none => 0x00
  | .deviceNotReady => 0x90
  | .rateZero => 0x91
  | .rateOverflow => 0x92
  | .rearmLate => 0xA0
  | .rearmDevice => 0xA1

/-- The code of a response status (30_encoding.md R90). -/
def Status.code : Status → BitVec 8
  | .ok => 0x00
  | .full => 0x01
  | .errIllegal => 0x80
  | .errContext => 0x81
  | .errState => 0x82
  | .errDeviceNotReady => 0x90
  | .errRateZero => 0x91
  | .errRateOverflow => 0x92

/-- STATUS = `zext_32({S.err, 0b000000, S.state})` (10_state.md R33). -/
def statusView (b : Block) : Word := 0#16 ++ b.err.code ++ 0#6 ++ b.state.code

/-- DROPCOUNT, the view of `S.drop` (10_state.md R34). -/
def dropView (b : Block) : Word := b.drop

end Sys2Proof.Machine
end

