-- ==== Sys2Proof/Syntax.lean ====
section
/-! DEFINITION. The commands of the block, one constructor per row of spec/opcode_table.json. -/

namespace Sys2Proof

/-- A caller's execution context, the CTX field (30_encoding.md R83). The reserved value 0b11 names no context. -/
inductive Ctx where
  | task
  | isr
  | worker
  deriving DecidableEq, Repr, Inhabited

/-- A counting signal, the SEL field (30_encoding.md R84, 10_state.md R30). The reserved value 0b11 names no signal. -/
inductive Signal where
  | base
  | d10
  | d100
  deriving DecidableEq, Repr, Inhabited

/-- The operations of the block (30_encoding.md R82). `tick` is internal: only the block's alarm issues it (R97). -/
inductive Instr where
  /-- INIT: the operand word FREQ in Hz (30_encoding.md R87, 40_initialize.md R112). -/
  | init (ctx : Ctx) (freq : Word)
  /-- TICK, the tick service (41_tick.md R134). -/
  | tick
  /-- ENQ: LEN and its payload (30_encoding.md R86, R88, 42_queue.md R160). -/
  | enq (ctx : Ctx) (len : BitVec 16) (payload : List Byte)
  /-- DEQ (42_queue.md R165). -/
  | deq (ctx : Ctx)
  /-- TAKE on one signal (43_signals_inspect.md R190). -/
  | take (ctx : Ctx) (sel : Signal)
  /-- RDSTAT (43_signals_inspect.md R196). -/
  | rdstat (ctx : Ctx)
  /-- RDDROP (43_signals_inspect.md R198). -/
  | rddrop (ctx : Ctx)
  deriving DecidableEq, Repr, Inhabited

end Sys2Proof
end

