-- ==== Sys2Proof/WellFormed.lean ====
section
/-! DEFINITION. Which terms of `Instr` are commands of the interface. -/

namespace Sys2Proof

/-- A command is well formed when its operands are what its word declares: ENQ carries exactly LEN payload bytes
(30_encoding.md R88). The types of the other fields admit nothing else. -/
def wellFormed : Instr → Bool
  | .init _ _ => true
  | .tick => true
  | .enq _ len payload => payload.length == len.toNat
  | .deq _ => true
  | .take _ _ => true
  | .rdstat _ => true
  | .rddrop _ => true

end Sys2Proof
end

