-- ==== Sys2Proof/Decode.lean ====
section
/-! DEFINITION. Decoding and encoding of commands: the command word CMD32 (30_encoding.md R81), its operands (R80) and
their serialisation in bytes (20_memory.md R62). -/

namespace Sys2Proof

/-- What the decoder reads from a transaction. -/
inductive Decoded where
  /-- A legal command. -/
  | instr (i : Instr)
  /-- A word that is reserved or malformed: the block answers ERR_ILLEGAL (30_encoding.md R93, R95). -/
  | illegal
  /-- Not a command: the bytes are not one word and the operands it declares (30_encoding.md R88, D42). -/
  | notACommand
  deriving DecidableEq, Repr

/-- Who issues the word: a caller on the command interface, or the block's own alarm (30_encoding.md R97). -/
inductive Issuer where
  | caller
  | alarm
  deriving DecidableEq, Repr

/-! ## Bytes and words (20_memory.md R62: little-endian) -/

/-- A word from its bytes, byte 0 holding bits 7:0 (R62). -/
def wordOfBytes (b0 b1 b2 b3 : Byte) : Word := b3 ++ b2 ++ b1 ++ b0

/-- The four bytes of a word, bits 7:0 first (R62). -/
def wordBytes (w : Word) : List Byte :=
  [w.extractLsb' 0 8, w.extractLsb' 8 8, w.extractLsb' 16 8, w.extractLsb' 24 8]

/-- The first word of a byte sequence; 0 when there are fewer than four bytes, which no framed command shows. -/
def firstWord : List Byte → Word
  | b0 :: b1 :: b2 :: b3 :: _ => wordOfBytes b0 b1 b2 b3
  | _ => 0

/-- The `n` low bytes of a number, least significant first. -/
def leBytes : Nat → Nat → List Byte
  | 0, _ => []
  | n + 1, v => BitVec.ofNat 8 v :: leBytes n (v / 256)

/-! ## The fields of the command word (30_encoding.md R81) -/

/-- OP, bits 31:28 (R82). -/
def opField (w : Word) : BitVec 4 := w.extractLsb' 28 4

/-- CTX, bits 27:26 (R83). -/
def ctxField (w : Word) : BitVec 2 := w.extractLsb' 26 2

/-- SEL, bits 25:24 (R84). -/
def selField (w : Word) : BitVec 2 := w.extractLsb' 24 2

/-- RSV, bits 23:16 (R85). -/
def rsvField (w : Word) : BitVec 8 := w.extractLsb' 16 8

/-- LEN, bits 15:0 (R86). -/
def lenField (w : Word) : BitVec 16 := w.extractLsb' 0 16

/-- The context a CTX value names (R83). -/
def ctxOfBits (b : BitVec 2) : Option Ctx :=
  if b = 0b00 then some .task else if b = 0b01 then some .isr else if b = 0b10 then some .worker else none

/-- The CTX value of a context (R83). -/
def ctxBits : Ctx → BitVec 2
  | .task => 0b00
  | .isr => 0b01
  | .worker => 0b10

/-- The signal a SEL value names (R84). -/
def signalOfBits (b : BitVec 2) : Option Signal :=
  if b = 0b00 then some .base else if b = 0b01 then some .d10 else if b = 0b10 then some .d100 else none

/-- The SEL value of a signal (R84). -/
def signalBits : Signal → BitVec 2
  | .base => 0b00
  | .d10 => 0b01
  | .d100 => 0b10

/-! ## Decoding -/

/-- How many operand bytes follow a command word (30_encoding.md R80): INIT's operand word and ENQ's payload, also when the
word is illegal (R93). -/
def operandBytes (w : Word) : Nat :=
  if opField w = 0x1 then 4 else if opField w = 0x3 then (lenField w).toNat else 0

/-- A transaction cut into its command word and operand bytes; none when the byte count is not the declared one (R88). -/
def splitCommand : List Byte → Option (Word × List Byte)
  | b0 :: b1 :: b2 :: b3 :: operand =>
    if operand.length = operandBytes (wordOfBytes b0 b1 b2 b3) then some (wordOfBytes b0 b1 b2 b3, operand) else none
  | _ => none

/-- The bytes form a transaction: one command word and exactly the operands it declares (30_encoding.md R80, R88). -/
def isCommand (bytes : List Byte) : Bool := (splitCommand bytes).isSome

/-- The opcodes a caller may issue (30_encoding.md R93's first check). TICK is not among them (R97). -/
def externalOp (op : BitVec 4) : Bool :=
  op = 0x1 || op = 0x3 || op = 0x4 || op = 0x5 || op = 0x6 || op = 0x7

/-- The six checks of 30_encoding.md R93 that answer ERR_ILLEGAL, in its order. -/
def legalWord (w : Word) : Bool :=
  externalOp (opField w)
    && !(ctxField w = 0b11)
    && !(rsvField w != 0)
    && !(opField w != 0x5 && selField w != 0b00)
    && !(opField w = 0x5 && selField w = 0b11)
    && !(opField w != 0x3 && lenField w != 0)

/-- The operation of an external opcode (30_encoding.md R82); every other opcode is illegal. -/
def operation (op : BitVec 4) (ctx : Ctx) (sel : Signal) (len : BitVec 16) (operand : List Byte) : Decoded :=
  if op = 0x1 then .instr (.init ctx (firstWord operand))
  else if op = 0x3 then .instr (.enq ctx len operand)
  else if op = 0x4 then .instr (.deq ctx)
  else if op = 0x5 then .instr (.take ctx sel)
  else if op = 0x6 then .instr (.rdstat ctx)
  else if op = 0x7 then .instr (.rddrop ctx)
  else .illegal

/-- The command a caller's word selects (30_encoding.md R93). -/
def decodeExternal (w : Word) (operand : List Byte) : Decoded :=
  if legalWord w then
    match ctxOfBits (ctxField w), signalOfBits (selField w) with
    | some ctx, some sel => operation (opField w) ctx sel (lenField w) operand
    | _, _ => .illegal
  else .illegal

/-- The alarm issues TICK, OP 0x2, and nothing else (30_encoding.md R82, R97). -/
def decodeInternal (w : Word) : Decoded :=
  if opField w = 0x2 then .instr .tick else .illegal

/-- The decoder, total on any bytes (30_encoding.md R96). -/
def decode (who : Issuer) (bytes : List Byte) : Decoded :=
  match splitCommand bytes with
  | none => .notACommand
  | some (w, operand) =>
    match who with
    | .caller => decodeExternal w operand
    | .alarm => decodeInternal w

/-! ## Encoding -/

/-- A command word from its fields, RSV being 0 (30_encoding.md R81, R85). -/
def commandWord (op : BitVec 4) (ctx : BitVec 2) (sel : BitVec 2) (len : BitVec 16) : Word :=
  op ++ ctx ++ sel ++ 0#8 ++ len

/-- The command word of an instruction (30_encoding.md R98). -/
def encodeWord : Instr → Word
  | .init ctx _ => commandWord 0x1 (ctxBits ctx) 0 0
  | .tick => commandWord 0x2 0 0 0
  | .enq ctx len _ => commandWord 0x3 (ctxBits ctx) 0 len
  | .deq ctx => commandWord 0x4 (ctxBits ctx) 0 0
  | .take ctx sel => commandWord 0x5 (ctxBits ctx) (signalBits sel) 0
  | .rdstat ctx => commandWord 0x6 (ctxBits ctx) 0 0
  | .rddrop ctx => commandWord 0x7 (ctxBits ctx) 0 0

/-- The operand bytes of an instruction (30_encoding.md R80). -/
def encodeOperand : Instr → List Byte
  | .init _ freq => wordBytes freq
  | .tick => []
  | .enq _ _ payload => payload
  | .deq _ => []
  | .take _ _ => []
  | .rdstat _ => []
  | .rddrop _ => []

/-- The transaction of an instruction: its command word and operands in bytes (30_encoding.md R80, 20_memory.md R62). -/
def encode (i : Instr) : List Byte := wordBytes (encodeWord i) ++ encodeOperand i

/-- Who issues an instruction: the alarm issues TICK, callers the rest (30_encoding.md R97). -/
def issuerOf : Instr → Issuer
  | .init _ _ => .caller
  | .tick => .alarm
  | .enq _ _ _ => .caller
  | .deq _ => .caller
  | .take _ _ => .caller
  | .rdstat _ => .caller
  | .rddrop _ => .caller

/-! ## The opcode table's numbering of an instruction's bits -/

/-- The transaction whose bits are `w`, `nbits` of them given and the rest 0, up to the operands its word declares. -/
def commandBytes (nbits w : Nat) : List Byte :=
  leBytes (4 + operandBytes (BitVec.ofNat 32 (w % 2 ^ nbits))) (w % 2 ^ nbits)

/-- Who issues the words of a row: OP 0x2 is the alarm's (30_encoding.md R82, R97). -/
def issuerOfWord (w : Word) : Issuer := if opField w = 0x2 then .alarm else .caller

/-- The instruction the decoder reads from the bits of a row of spec/opcode_table.json, issued by whoever may issue it. -/
def decodeTableWord (nbits w : Nat) : Option Instr :=
  match decode (issuerOfWord (BitVec.ofNat 32 (w % 2 ^ nbits))) (commandBytes nbits w) with
  | .instr i => some i
  | .illegal => none
  | .notACommand => none

end Sys2Proof
end

