-- ==== Sys2Proof/Machine/Operands.lean ====
section
/-! DEFINITION. The operand forms: the caller's context, the signal selector, the payload and its record, INIT's frequency. -/

namespace Sys2Proof.Machine

/-- The table of 30_encoding.md R94: the operation may be called from the context it is called from. TICK has no caller
(60_exceptions.md R219). -/
def allowedCtx : Instr → Bool
  | .init ctx _ => ctx = .task
  | .tick => true
  | .enq _ _ _ => true
  | .deq ctx => ctx = .worker
  | .take ctx _ => ctx = .task
  | .rdstat _ => true
  | .rddrop _ => true

/-- `S.sig[k]` (10_state.md R30). -/
def Block.sig (b : Block) : Signal → Nat
  | .base => b.sigBase
  | .d10 => b.sigD10
  | .d100 => b.sigD100

/-- `S.sig[k] <- v` (10_state.md R30). -/
def Block.setSig (b : Block) (k : Signal) (v : Nat) : Block :=
  match k with
  | .base => { b with sigBase := v }
  | .d10 => { b with sigD10 := v }
  | .d100 => { b with sigD100 := v }

/-- `TIMER_TOP`, the largest counter value (00_scope.md R8). -/
def timerTop (p : Params) : Nat := 2 ^ p.tw - 1

/-- A number reduced to the timer's width, `n mod 2^TW`. -/
def wrapTimer (p : Params) (n : Nat) : Nat := n % 2 ^ p.tw

/-- Ticks per period, `floor(FREQ / BASE_RATE_HZ)` (40_initialize.md R113). -/
def periodOf (p : Params) (freq : Word) : Nat := freq.toNat / p.baseRateHz

/-- How many payload bytes ENQ stores, `min(LEN, REC)` (42_queue.md R162). -/
def storedLen (p : Params) (len : Nat) : Nat := min len p.recBytes

/-- The padding bytes of a record: free values, drawn one after another (42_queue.md R163; log 9). -/
def padding (from_ : Nat) : Nat → List Byte
  | 0 => []
  | n + 1 => Config.freeByte from_ :: padding (from_ + 1) n

/-- The record ENQ stores: the first `min(LEN, REC)` payload bytes, then padding up to REC bytes (42_queue.md R160). -/
def recordOf (p : Params) (len : Nat) (payload : List Byte) (draws : Nat) : List Byte :=
  payload.take (storedLen p len) ++ padding draws (p.recBytes - storedLen p len)

end Sys2Proof.Machine
end

