-- ==== Sys2Proof/Machine/Ops.lean ====
section
/-! DEFINITION. The named operations the meanings share: answering and holding, the fatal conditions, the alarm, releases and
dividers, the queue. The block raises no trap (00_scope.md R13): its exceptions are the error responses (`raiseError`), the
recorded fatal conditions (`failConfig`, `haltGenerator`) and the one timer interrupt, whose entry is `takeInterrupt` and whose
return is the end of the step (60_exceptions.md R216). -/

namespace Sys2Proof.Machine

/-- `sat_inc(c, L)` (00_scope.md R12). -/
def satInc (c limit : Nat) : Nat := if c = limit then c else c + 1

/-! ## Responses and holds -/

/-- `respond(status, value)` or `respond(status, value, data)` (00_scope.md R13, 30_encoding.md R89). -/
def respond (status : Status) (value : Word) (data : Option (List Byte)) (s : State) : State :=
  { s with response := some { status := status, value := value, data := data } }

/-- `raise Error(code)`: the code, value 0, and no change of state (00_scope.md R13). -/
def raiseError (status : Status) (s : State) : State := respond status 0 none s

/-- No step of the command: nothing changes and nothing is answered (00_scope.md R13, `hold until`; log 7). -/
def hold (s : State) : State := { s with response := none }

/-- The context check of 30_encoding.md R93, the last before the operation's own rule. -/
def checkCtx (i : Instr) (body : State → State) (s : State) : State :=
  if allowedCtx i then body s else raiseError .errContext s

/-! ## Fatal conditions -/

/-- A configuration error: CFGFAIL with its cause (40_initialize.md R112, R115). -/
def failConfig (cause : ErrCode) (b : Block) : Block := { b with state := .cfgfail, err := cause }

/-- A failed re-arm: HALTED with its cause; no alarm is armed again (41_tick.md R140). -/
def haltGenerator (cause : ErrCode) (b : Block) : Block := { b with state := .halted, err := cause }

/-! ## The timer and its alarm -/

/-- INIT's success: the period is set and the first alarm armed `period` counts from now (40_initialize.md R112). -/
def startTimer (p : Params) (period : Nat) (b : Block) : Block :=
  { b with period := period, deadline := wrapTimer p (b.now + period), tickPending := false, elapsed := 0, state := .running }

/-- TIMER_COUNT is enabled: always, but for a pending service that has reached ISR_LATENCY_BOUND (41_tick.md R144). -/
def countEnabled (p : Params) (b : Block) : Bool :=
  match p.latencyBound with
  | none => true
  | some bound => !(b.tickPending && b.elapsed == bound)

/-- One TIMER_COUNT step (41_tick.md R130): lateness while a service is pending (R132), else the expiry (R131). -/
def timerCount (p : Params) (b : Block) : Block :=
  if b.tickPending then
    { b with now := wrapTimer p (b.now + 1), elapsed := min (b.elapsed + 1) (timerTop p) }
  else if b.state = .running ∧ wrapTimer p (b.now + 1) = b.deadline then
    { b with now := wrapTimer p (b.now + 1), tickPending := true, elapsed := 0 }
  else
    { b with now := wrapTimer p (b.now + 1) }

/-! ## The tick service -/

/-- Entry of the timer interrupt: the pending bit is cleared; nothing is saved, no mode changes (60_exceptions.md R215, R216). -/
def takeInterrupt (b : Block) : Block := { b with tickPending := false }

/-- One release of a counting signal, saturating at SIG_LIMIT (41_tick.md R134, 10_state.md R30). -/
def release (p : Params) (k : Signal) (b : Block) : Block := b.setSig k (satInc (b.sig k) p.sigLimit)

/-- The first divider (41_tick.md R136). -/
def divideTen (p : Params) (b : Block) : Block :=
  if b.cnt10 + 1 = p.divA then release p .d10 { b with cnt10 := 0 } else { b with cnt10 := b.cnt10 + 1 }

/-- The second divider (41_tick.md R137). -/
def divideHundred (p : Params) (b : Block) : Block :=
  if b.cnt100 + 1 = p.divB then release p .d100 { b with cnt100 := 0 } else { b with cnt100 := b.cnt100 + 1 }

/-- The re-arm from the previous deadline; late wins over a device failure (41_tick.md R138, R139, R140). -/
def rearm (p : Params) (deviceFails : Bool) (b : Block) : Block :=
  if b.period ≤ b.elapsed then haltGenerator .rearmLate { b with elapsed := 0 }
  else if deviceFails then haltGenerator .rearmDevice { b with elapsed := 0 }
  else { b with elapsed := 0, deadline := wrapTimer p (b.deadline + b.period) }

/-- The tick service on `S`, in the order of 41_tick.md R134. -/
def serviceBlock (p : Params) (deviceFails : Bool) (b : Block) : Block :=
  rearm p deviceFails (divideHundred p (divideTen p (release p .base (takeInterrupt b))))

/-- `REARM_MAY_FAIL and draw_bool()` (41_tick.md R134): a free value, drawn only under REARM_MAY_FAIL (log 10). -/
def deviceDraw (s : State) : Bool := s.params.rearmMayFail && Config.freeBool s.draws

/-- How many draws the re-arm takes (41_tick.md R134). -/
def deviceDraws (s : State) : Nat := if s.params.rearmMayFail then 1 else 0

/-! ## The queue -/

/-- ENQ's body: count a drop on a full queue, else append the record (42_queue.md R160, R161). -/
def enqueue (len : Nat) (payload : List Byte) (s : State) : State :=
  if s.blk.queue.length = s.params.qcap then
    respond .full 0 none { s with blk := { s.blk with drop := s.blk.drop + 1 } }
  else
    respond .ok 1 none
      { s with
        blk := { s.blk with queue := s.blk.queue ++ [recordOf s.params len payload s.draws] }
        draws := s.draws + (s.params.recBytes - storedLen s.params len) }

/-- DEQ's body: hold on an empty queue, else remove and return the head (42_queue.md R165, R166). -/
def dequeue (s : State) : State :=
  match s.blk.queue with
  | [] => hold s
  | r :: rest => respond .ok 0 (some r) { s with blk := { s.blk with queue := rest } }

/-- TAKE's body: hold on a zero count, else take one away (43_signals_inspect.md R190, R191). -/
def takeSignal (k : Signal) (s : State) : State :=
  if s.blk.sig k = 0 then hold s
  else respond .ok 0 none { s with blk := s.blk.setSig k (s.blk.sig k - 1) }

/-! ## Reset -/

/-- RESET (70_reset_and_hazards.md R240): `S` at its reset values, the counter drawn (R242), no command outstanding. The
parameters, the input DEVICE_READY and the model's bookkeeping stay (log 17). -/
def resetMachine (draw : Nat) (s : State) : State :=
  { s with blk := Block.reset (wrapTimer s.params draw), callers := [], response := none }

end Sys2Proof.Machine
end

