-- ==== Sys2Proof/Machine/Init.lean ====
section
/-! DEFINITION. INIT (40_initialize.md). -/

namespace Sys2Proof.Machine

/-- INIT after decode and the context check, the errors in the order of 40_initialize.md R112. -/
def configure (freq : Word) (s : State) : State :=
  if s.blk.state ≠ .uninit then raiseError .errState s
  else if s.deviceReady = false then
    raiseError .errDeviceNotReady { s with blk := failConfig .deviceNotReady s.blk }
  else if periodOf s.params freq = 0 then
    raiseError .errRateZero { s with blk := failConfig .rateZero s.blk }
  else if timerTop s.params < periodOf s.params freq then
    raiseError .errRateOverflow { s with blk := failConfig .rateOverflow s.blk }
  else
    respond .ok (BitVec.ofNat 32 (periodOf s.params freq)) none
      { s with blk := startTimer s.params (periodOf s.params freq) s.blk }

/-- INIT (40_initialize.md R112; contexts 30_encoding.md R94). -/
def execInit (ctx : Ctx) (freq : Word) (s : State) : Host.Outcome State Fault Refusal :=
  .next (checkCtx (.init ctx freq) (configure freq) s)

end Sys2Proof.Machine
end

