-- ==== Sys2Proof/Machine/Queue.lean ====
section
/-! DEFINITION. ENQ and DEQ (42_queue.md). -/

namespace Sys2Proof.Machine

/-- ENQ (42_queue.md R160), from any context and in every `S.state` (R169). A payload that is not LEN bytes long is not a
command (30_encoding.md R88). -/
def execEnq (ctx : Ctx) (len : BitVec 16) (payload : List Byte) (s : State) : Host.Outcome State Fault Refusal :=
  if payload.length = len.toNat then .next (checkCtx (.enq ctx len payload) (enqueue len.toNat payload) s)
  else .refused .notACommand

/-- DEQ (42_queue.md R165), from WORKER only and in every `S.state` (R169). -/
def execDeq (ctx : Ctx) (s : State) : Host.Outcome State Fault Refusal :=
  .next (checkCtx (.deq ctx) dequeue s)

end Sys2Proof.Machine
end

