-- ==== Sys2Proof/Machine/Signals.lean ====
section
/-! DEFINITION. TAKE, RDSTAT and RDDROP (43_signals_inspect.md). -/

namespace Sys2Proof.Machine

/-- TAKE (43_signals_inspect.md R190), from TASK only. -/
def execTake (ctx : Ctx) (sel : Signal) (s : State) : Host.Outcome State Fault Refusal :=
  .next (checkCtx (.take ctx sel) (takeSignal sel) s)

/-- RDSTAT (43_signals_inspect.md R196), from any context. -/
def execRdstat (ctx : Ctx) (s : State) : Host.Outcome State Fault Refusal :=
  .next (checkCtx (.rdstat ctx) (fun s => respond .ok (statusView s.blk) none s) s)

/-- RDDROP (43_signals_inspect.md R198), from any context. -/
def execRddrop (ctx : Ctx) (s : State) : Host.Outcome State Fault Refusal :=
  .next (checkCtx (.rddrop ctx) (fun s => respond .ok (dropView s.blk) none s) s)

end Sys2Proof.Machine
end

