-- ==== Sys2Proof/Machine/Tick.lean ====
section
/-! DEFINITION. TICK, the tick service (41_tick.md). -/

namespace Sys2Proof.Machine

/-- TICK (41_tick.md R134): enabled iff `S.tick_pending = 1`, otherwise it has no step (R133; log 7). It answers no caller
(60_exceptions.md R213). -/
def execTick (s : State) : Host.Outcome State Fault Refusal :=
  .next (if s.blk.tickPending then
    { s with
      blk := serviceBlock s.params (deviceDraw s) s.blk
      draws := s.draws + deviceDraws s
      response := none }
  else hold s)

end Sys2Proof.Machine
end

