-- ==== Sys2Proof/Machine/Dispatch.lean ====
section
/-! DEFINITION. One arm per instruction. -/

namespace Sys2Proof.Machine

def exec (i : Instr) (s : State) : Host.Outcome State Fault Refusal :=
  match i with
  | .init ctx freq => Sys2Proof.Machine.execInit ctx freq s
  | .tick => Sys2Proof.Machine.execTick s
  | .enq ctx len payload => Sys2Proof.Machine.execEnq ctx len payload s
  | .deq ctx => Sys2Proof.Machine.execDeq ctx s
  | .take ctx sel => Sys2Proof.Machine.execTake ctx sel s
  | .rdstat ctx => Sys2Proof.Machine.execRdstat ctx s
  | .rddrop ctx => Sys2Proof.Machine.execRddrop ctx s

end Sys2Proof.Machine
end

