-- ==== Sys2Proof/Machine/Turn.lean ====
section
/-! DEFINITION. The agents: whose turn it is, the callers' ports, and what one turn does (20_memory.md R67). -/

namespace Sys2Proof.Machine

/-- The command a caller has outstanding, if any (30_encoding.md R80). -/
def outstanding (callers : List Port) (n : Nat) : Option (List Byte) :=
  match callers with
  | [] => none
  | c :: rest => if c.caller = n then some c.cmd else outstanding rest n

/-- The ports without a caller's command. -/
def withoutCaller (callers : List Port) (n : Nat) : List Port := callers.filter fun c => c.caller ≠ n

/-- A caller issues a command. Bytes that are no command are refused at the transcriber (30_encoding.md R88); a caller with a
command outstanding issues no other (R80), so its turn passes. -/
def issueCommand (n : Nat) (bytes : List Byte) (s : State) : Host.Outcome State Fault Refusal :=
  if isCommand bytes then
    .next (if (outstanding s.callers n).isSome then s else { s with callers := s.callers ++ [{ caller := n, cmd := bytes }] })
  else .refused .notACommand

/-- What the block does with a transaction: the decoded instruction's meaning, or ERR_ILLEGAL with no change of state
(30_encoding.md R93). -/
def runCommand (who : Issuer) (bytes : List Byte) (s : State) : Host.Outcome State Fault Refusal :=
  match decode who bytes with
  | .instr i => exec i s
  | .illegal => .next (raiseError .errIllegal s)
  | .notACommand => .refused .notACommand

/-- After the command of caller `n` took its turn: an answered command leaves its port and its response reaches the caller
(30_encoding.md R80, R89); a held one stays (00_scope.md R13). -/
def deliver (n : Nat) (s : State) : State :=
  match s.response with
  | none => s
  | some r => { s with callers := withoutCaller s.callers n, answers := { caller := n, response := r } :: s.answers }

/-- `deliver` on the outcome of a command. -/
def deliverOutcome (n : Nat) : Host.Outcome State Fault Refusal → Host.Outcome State Fault Refusal
  | .next s => .next (deliver n s)
  | .fault r => .fault r
  | .refused r => .refused r

/-- The turn of a caller's outstanding command; it passes when there is none. -/
def serveCaller (n : Nat) (s : State) : Host.Outcome State Fault Refusal :=
  match outstanding s.callers n with
  | none => .next s
  | some bytes => deliverOutcome n (runCommand .caller bytes s)

/-- The turn of the timer; it passes while ISR_LATENCY_BOUND holds the counter (41_tick.md R144). -/
def countTurn (s : State) : State :=
  if countEnabled s.params s.blk then { s with blk := timerCount s.params s.blk } else s

/-- One turn. A turn whose agent has no enabled step passes without effect (log 7). -/
def runTurn (t : Turn) (s : State) : Host.Outcome State Fault Refusal :=
  match t with
  | .count => .next (countTurn s)
  | .service => runCommand .alarm (encode .tick) s
  | .issue n bytes => issueCommand n bytes s
  | .serve n => serveCaller n s
  | .ready level => .next { s with deviceReady := level }
  | .reset draw => .next (resetMachine draw s)

/-- The turn that comes next: the agenda's first, or a free one when the agenda is empty (20_memory.md R67; log 4). -/
def turnOf (s : State) : Turn :=
  match s.agenda with
  | t :: _ => t
  | [] => Config.freeTurn s.draws

/-- The state in which that turn runs: the turn is taken from the agenda or drawn, and no response stands yet. -/
def beginTurn (s : State) : State :=
  match s.agenda with
  | _ :: rest => { s with agenda := rest, response := none }
  | [] => { s with draws := s.draws + 1, response := none }

/-- The instruction of a transaction put where the very next step fetches it (log 12): TICK at the alarm, as a pending
expiry whose service is next; any other word on the port of caller 0, whose turn is next. -/
def placeCommand (bytes : List Byte) (s : State) : State :=
  match issuerOfWord (firstWord bytes) with
  | .alarm => { s with blk := { s.blk with tickPending := true }, agenda := .service :: s.agenda }
  | .caller =>
    { s with callers := { caller := 0, cmd := bytes } :: withoutCaller s.callers 0, agenda := .serve 0 :: s.agenda }

end Sys2Proof.Machine
end

