-- ==== Sys2Proof/Machine/Step.lean ====
section
/-! DEFINITION. One step of the machine: one turn of one agent. -/

namespace Sys2Proof.Machine

/-- One atomic step (20_memory.md R64, R67). -/
def step (s : State) : Host.Outcome State Fault Refusal := runTurn (turnOf s) (beginTurn s)

/-- The instruction whose bits are `w` (numbered as spec/opcode_table.json numbers them) placed so that the very next step
runs it (log 12). -/
def State.withFetchWord (s : State) (nbits w : Nat) : State := placeCommand (commandBytes nbits w) s

end Sys2Proof.Machine
end

