-- ==== Sys2Proof/Machine/Directives.lean ====
section
/-! DEFINITION. The harness directives that drive the environment (30_encoding.md R100): each is the list of turns it stands for
in the state it is given in, or nothing where the rule gives it no run. -/

namespace Sys2Proof.Machine

/-! ## Several steps -/

/-- `k` steps, up to the first that stops. -/
def steps : Nat → State → Host.Outcome State Fault Refusal
  | 0, s => .next s
  | k + 1, s =>
    match step s with
    | .next t => steps k t
    | .fault r => .fault r
    | .refused r => .refused r

/-- The machine taken through the given turns; what its agenda held follows them. -/
def runTurns (turns : List Turn) (s : State) : Host.Outcome State Fault Refusal :=
  steps turns.length { s with agenda := turns ++ s.agenda }

/-! ## The directives -/

/-- The directives of 30_encoding.md R100. -/
inductive Directive where
  /-- `COUNT n` -/
  | count (n : Nat)
  /-- `SERVICE` -/
  | service
  /-- `TICKS n` -/
  | ticks (n : Nat)
  /-- `READY b` -/
  | ready (level : Bool)
  deriving DecidableEq, Repr

/-- `n` timer counts in a row are all enabled steps (41_tick.md R130, R144). -/
def countsEnabled (p : Params) : Nat → Block → Bool
  | 0, _ => true
  | n + 1, b => countEnabled p b && countsEnabled p n (timerCount p b)

/-- How many TIMER_COUNT steps until `S.tick_pending = 1`; none if `fuel` of them do not bring it, as in a block that is not
RUNNING, whose alarm is not armed (41_tick.md R131). -/
def countsUntilPending (p : Params) : Nat → Block → Option Nat
  | 0, b => if b.tickPending then some 0 else none
  | fuel + 1, b =>
    if b.tickPending then some 0
    else if b.state = .running then (countsUntilPending p fuel (timerCount p b)).map (· + 1)
    else none

/-- `TICKS n`: n times, TIMER_COUNT steps until `S.tick_pending = 1`, then at once SERVICE. A whole turn of the counter, `2^TW`
counts, brings the expiry if any number does. -/
def ticksTurns : Nat → State → Option (List Turn)
  | 0, _ => some []
  | n + 1, s =>
    match countsUntilPending s.params (2 ^ s.params.tw) s.blk with
    | none => none
    | some k =>
      match runTurns (List.replicate k .count ++ [.service]) s with
      | .next t => (ticksTurns n t).map fun more => List.replicate k .count ++ .service :: more
      | .fault _ => none
      | .refused _ => none

/-- The turns a directive stands for in a state. None where R100 gives it no run: a count that is not enabled, SERVICE with no
expiry pending, TICKS on a block that comes to no expiry (log 20). -/
def directiveTurns (d : Directive) (s : State) : Option (List Turn) :=
  match d with
  | .count n => if countsEnabled s.params n s.blk then some (List.replicate n .count) else none
  | .service => if s.blk.tickPending then some [.service] else none
  | .ticks n => ticksTurns n s
  | .ready level => some [.ready level]

/-- The turns of a script line that is a command: a caller issues it, and the block takes its step (30_encoding.md R80). -/
def commandTurns (caller : Nat) (i : Instr) : List Turn := [.issue caller (encode i), .serve caller]

end Sys2Proof.Machine
end

