-- ==== Sys2Proof/Safety.lean ====
section
/-! DEFINITION. What the statements speak of: the invariant of the block (10_state.md R40), runs, and what a step does. -/

namespace Sys2Proof.Machine

/-- The cause in `S.err` fits the state (10_state.md R22; R40 item 7 is its first two lines). -/
def Block.causeFits (b : Block) : Prop :=
  match b.state with
  | .uninit => b.err = .none
  | .running => b.err = .none
  | .halted => b.err = .rearmLate ∨ b.err = .rearmDevice
  | .cfgfail => b.err = .deviceNotReady ∨ b.err = .rateZero ∨ b.err = .rateOverflow

/-- What holds of `S` in every reachable state: 10_state.md R40 (items 1 to 8), the legal values of R20, and the meaning of
`S.elapsed` of 41_tick.md R132. -/
structure Block.Inv (p : Params) (b : Block) : Prop where
  queueBound : b.queue.length ≤ p.qcap
  recordSize : ∀ r ∈ b.queue, r.length = p.recBytes
  cnt10Range : b.cnt10 < p.divA
  cnt100Range : b.cnt100 < p.divB
  sigRange : ∀ k, b.sig k ≤ p.sigLimit
  periodRange : b.period ≤ timerTop p
  periodPositive : b.state = .running → 1 ≤ b.period
  nowRange : b.now ≤ timerTop p
  deadlineRange : b.deadline ≤ timerTop p
  elapsedRange : b.elapsed ≤ timerTop p
  pendingRunning : b.tickPending = true → b.state = .running
  elapsedZero : b.tickPending = false → b.elapsed = 0
  lateness : b.tickPending = true → b.elapsed < timerTop p → b.now = wrapTimer p (b.deadline + b.elapsed)
  cause : b.causeFits
  uninitZero : b.state = .uninit → b.period = 0 ∧ b.cnt10 = 0 ∧ b.cnt100 = 0 ∧ ∀ k, b.sig k = 0

/-- The invariant of the whole machine: legal parameters (00_scope.md R9), the block's invariant, every port holding a command
(30_encoding.md R88) and no caller with two (R80). -/
structure State.Inv (s : State) : Prop where
  params : s.params.wf = true
  block : s.blk.Inv s.params
  commands : ∀ c ∈ s.callers, isCommand c.cmd = true
  oneEach : (s.callers.map Port.caller).Nodup

/-- The next step of `s` is a TICK service (41_tick.md R133). -/
def servicesNext (s : State) : Bool := turnOf s = .service && s.blk.tickPending

/-- The next step of `s` is a TIMER_COUNT step (41_tick.md R130, R144). -/
def countsNext (s : State) : Bool := turnOf s = .count && countEnabled s.params s.blk

/-- The next turn of `s` resets the block. -/
def resetsNext (s : State) : Bool :=
  match turnOf s with
  | .reset _ => true
  | _ => false

/-- The instruction the next step of `s` runs, with the caller it runs it for; none when the step runs no instruction. -/
def instrNext (s : State) : Option (Option Nat × Instr) :=
  match turnOf s with
  | .service => some (none, .tick)
  | .serve n =>
    match outstanding s.callers n with
    | none => none
    | some bytes =>
      match decode .caller bytes with
      | .instr i => some (some n, i)
      | _ => none
  | _ => none

/-- A run with no reset in it: `trace` lists the states it steps from, first to last. -/
inductive Run (s : State) : List State → State → Prop where
  | start : Run s [] s
  | next {trace : List State} {m t : State} :
      Run s trace m → resetsNext m = false → step m = .next t → Run s (trace ++ [m]) t

/-- How many TICK services a trace holds. -/
def ticks (trace : List State) : Nat := trace.countP servicesNext

/-- How many timer counts a trace holds. -/
def counts (trace : List State) : Nat := trace.countP countsNext

/-- The records of the responses delivered after the first `n` ones, oldest first (30_encoding.md R89). -/
def recordsAfter (n : Nat) (s : State) : List (List Byte) :=
  ((s.answers.take (s.answers.length - n)).reverse).filterMap fun a => a.response.data

/-- The record that the next step of `s` stores, if that step is a caller's ENQ answered OK (42_queue.md R160). -/
def storesNext (s : State) : Option (List Byte) :=
  match instrNext s, step s with
  | some (_, .enq _ len payload), .next t =>
    if t.response.map Response.status = some .ok then
      some (recordOf s.params len.toNat payload (beginTurn s).draws)
    else none
  | _, _ => none

/-- The records of the ENQs a trace accepted, first to last. -/
def accepted (trace : List State) : List (List Byte) := trace.filterMap storesNext

/-- The instructions of a list taken one after another, with their responses; none as soon as one is not answered. -/
def execAll : List Instr → State → Option (State × List Response)
  | [], s => some (s, [])
  | i :: rest, s =>
    match exec i s with
    | .next t =>
      match t.response with
      | none => none
      | some r =>
        match execAll rest t with
        | none => none
        | some (u, rs) => some (u, r :: rs)
    | _ => none

/-- `S` with its counter and alarm turned by `c` counts (70_reset_and_hazards.md R253). -/
def Block.turned (p : Params) (c : Nat) (b : Block) : Block :=
  { b with now := wrapTimer p (b.now + c), deadline := wrapTimer p (b.deadline + c) }

/-- The machine with its counter and alarm turned by `c` counts. -/
def State.turned (c : Nat) (s : State) : State := { s with blk := s.blk.turned s.params c }

/-- An outcome with its next state changed by `f`. -/
def mapNext (f : State → State) : Host.Outcome State Fault Refusal → Host.Outcome State Fault Refusal
  | .next s => .next (f s)
  | .fault r => .fault r
  | .refused r => .refused r

/-- The two machines agree on what the queue operations may depend on (42_queue.md R169): everything but the rate generator's
fields, the signals and the inputs. -/
def sameQueueView (s t : State) : Prop :=
  s.params = t.params ∧ s.draws = t.draws ∧ s.blk.queue = t.blk.queue ∧ s.blk.drop = t.blk.drop

end Sys2Proof.Machine
end

