-- ==== Sys2Proof/Certificates/Slice0/Obligations.lean ====
section
/-! DEFINITION. The statements about the model, from the numbered rules of spec/. A state quantified over is any state, unless a
premise `Inv` says it is one the invariant admits. Conclusions of the form `exec i s = .next { s with … }` give the whole next
state: every field not named is unchanged. -/

open Sys2Proof Sys2Proof.Machine

/-! ## Encoding -/

/-- Decoding an encoded well-formed instruction, by whoever issues it, gives that instruction back, with every operand at every
value (30_encoding.md sections 2, 3 and 5). -/
def Obligations.DecodeOfEncodeIsIdentity : Prop :=
  ∀ i : Instr, wellFormed i = true → decode (issuerOf i) (encode i) = .instr i

/-- Whatever bytes a caller's command decodes from are exactly the encoding of what it decodes to: no bit of a legal command is
ignored (30_encoding.md sections 2 and 5). -/
def Obligations.EncodeOfDecodeIsIdentity : Prop :=
  ∀ (bytes : List Byte) (i : Instr), decode .caller bytes = .instr i → wellFormed i = true ∧ encode i = bytes

/-- R96: each word, with the operands it declares, is one of the six external opcodes with legal fields, or answers ERR_ILLEGAL
and changes nothing else. -/
def Obligations.DecoderIsTotal : Prop :=
  ∀ (w : Word) (operand : List Byte), operand.length = operandBytes w →
    (∃ i, decode .caller (wordBytes w ++ operand) = .instr i ∧ encodeWord i = w ∧ encodeOperand i = operand ∧
      ((∃ c f, i = .init c f) ∨ (∃ c l b, i = .enq c l b) ∨ (∃ c, i = .deq c) ∨ (∃ c k, i = .take c k) ∨
        (∃ c, i = .rdstat c) ∨ ∃ c, i = .rddrop c)) ∨
      (decode .caller (wordBytes w ++ operand) = .illegal ∧ ∀ s : State,
        runCommand .caller (wordBytes w ++ operand) s = .next { s with response := some ⟨.errIllegal, 0, none⟩ })

/-- R95 (which the spec derives from R93): the reserved and illegal encodings in full, each of which answers ERR_ILLEGAL and
changes nothing else; the all-zero word is one. -/
def Obligations.IllegalEncodingsInFull : Prop :=
  (∀ (w : Word) (operand : List Byte), operand.length = operandBytes w →
    (decode .caller (wordBytes w ++ operand) = .illegal ↔
      opField w ∈ [0x0, 0x2, 0x8, 0x9, 0xA, 0xB, 0xC, 0xD, 0xE, 0xF] ∨ ctxField w = 0b11 ∨ rsvField w ≠ 0 ∨
        (opField w ≠ 0x5 ∧ selField w ≠ 0) ∨ (opField w = 0x5 ∧ selField w = 0b11) ∨
        (opField w ≠ 0x3 ∧ lenField w ≠ 0))) ∧
    (∀ (bytes : List Byte) (s : State), decode .caller bytes = .illegal →
      runCommand .caller bytes s = .next { s with response := some ⟨.errIllegal, 0, none⟩ }) ∧
    decode .caller (wordBytes 0) = .illegal

/-- The encoding examples of R101, word by word (a sanity statement). -/
def Obligations.ExampleWordsDecode : Prop :=
  decode .caller [0x00, 0x00, 0x00, 0x10, 0x40, 0x42, 0x0F, 0x00] = .instr (.init .task 1000000) ∧
    decode .caller [0x05, 0x00, 0x00, 0x34, 1, 2, 3, 4, 5] = .instr (.enq .isr 5 [1, 2, 3, 4, 5]) ∧
    decode .caller ([0x28, 0x00, 0x00, 0x30] ++ (List.range 40).map (BitVec.ofNat 8)) =
      .instr (.enq .task 40 ((List.range 40).map (BitVec.ofNat 8))) ∧
    decode .caller [0x00, 0x00, 0x00, 0x48] = .instr (.deq .worker) ∧
    decode .caller [0x00, 0x00, 0x00, 0x50] = .instr (.take .task .base) ∧
    decode .caller [0x00, 0x00, 0x00, 0x51] = .instr (.take .task .d10) ∧
    decode .caller [0x00, 0x00, 0x00, 0x52] = .instr (.take .task .d100) ∧
    decode .caller [0x00, 0x00, 0x00, 0x60] = .instr (.rdstat .task) ∧
    decode .caller [0x00, 0x00, 0x00, 0x64] = .instr (.rdstat .isr) ∧
    decode .caller [0x00, 0x00, 0x00, 0x78] = .instr (.rddrop .worker) ∧
    decode .caller [0x00, 0x00, 0x00, 0x44] = .instr (.deq .isr) ∧
    decode .caller [0x00, 0x00, 0x00, 0x53] = .illegal ∧
    decode .alarm [0x00, 0x00, 0x00, 0x20] = .instr .tick

/-- R88: an ENQ word with a payload of another length than LEN is no command. The transcriber refuses it when a caller issues
it, whatever the state, so it never reaches a port; and the decoder names it. -/
def Obligations.PayloadOfWrongLengthIsNoCommand : Prop :=
  ∀ (w : Word) (payload : List Byte), opField w = 0x3 → payload.length ≠ (lenField w).toNat →
    decode .caller (wordBytes w ++ payload) = .notACommand ∧
      ∀ (s : State) (n : Nat), turnOf s = .issue n (wordBytes w ++ payload) → step s = .refused .notACommand

/-- R97: only the alarm issues TICK. A TICK word on the command interface answers ERR_ILLEGAL and changes nothing else, and no
command a caller can issue raises any signal count. -/
def Obligations.OnlyTheAlarmIssuesTick : Prop :=
  (∀ (w : Word) (s : State), opField w = 0x2 →
    runCommand .caller (wordBytes w) s = .next { s with response := some ⟨.errIllegal, 0, none⟩ }) ∧
    (∀ (bytes : List Byte) (i : Instr), decode .alarm bytes = .instr i → i = .tick) ∧
    ∀ (bytes : List Byte) (i : Instr), decode .caller bytes = .instr i →
      ∀ s t : State, exec i s = .next t → ∀ k, t.blk.sig k ≤ s.blk.sig k

/-! ## Commands, contexts and callers -/

/-- When the turn is a caller's and its outstanding command decodes to an instruction, the step is `exec` of that instruction on
the state with the turn taken, its response then delivered to the caller; when the turn is the alarm's, the step is `exec` of
TICK. What the delivery does is stated as well. -/
def Obligations.StepRunsDecodedInstruction : Prop :=
  (∀ (s : State) (n : Nat) (bytes : List Byte) (i : Instr), turnOf s = .serve n → outstanding s.callers n = some bytes →
    decode .caller bytes = .instr i → step s = deliverOutcome n (exec i (beginTurn s))) ∧
    (∀ s : State, turnOf s = .service → step s = exec .tick (beginTurn s)) ∧
    (∀ (s : State) (t : Turn) (rest : List Turn), s.agenda = t :: rest →
      turnOf s = t ∧ beginTurn s = { s with agenda := rest, response := none }) ∧
    (∀ (n : Nat) (t : State), t.response = none → deliverOutcome n (.next t) = .next t) ∧
    ∀ (n : Nat) (t : State) (r : Response), t.response = some r → deliverOutcome n (.next t) =
      .next { t with callers := withoutCaller t.callers n, answers := ⟨n, r⟩ :: t.answers }

/-- R94: the context table. In a context the table admits no response has status ERR_CONTEXT; every other answers ERR_CONTEXT with value 0
and changes nothing else. -/
def Obligations.ContextTable : Prop :=
  (∀ (c : Ctx) (f : Word) (s : State), if c = .task
    then ∀ t, exec (.init c f) s = .next t → ∀ r, t.response = some r → r.status ≠ .errContext
    else exec (.init c f) s = .next { s with response := some ⟨.errContext, 0, none⟩ }) ∧
    (∀ (c : Ctx) (l : BitVec 16) (b : List Byte) (s t : State), exec (.enq c l b) s = .next t →
      ∀ r, t.response = some r → r.status ≠ .errContext) ∧
    (∀ (c : Ctx) (s : State), if c = .worker
      then ∀ t, exec (.deq c) s = .next t → ∀ r, t.response = some r → r.status ≠ .errContext
      else exec (.deq c) s = .next { s with response := some ⟨.errContext, 0, none⟩ }) ∧
    (∀ (c : Ctx) (k : Signal) (s : State), if c = .task
      then ∀ t, exec (.take c k) s = .next t → ∀ r, t.response = some r → r.status ≠ .errContext
      else exec (.take c k) s = .next { s with response := some ⟨.errContext, 0, none⟩ }) ∧
    (∀ (c : Ctx) (s t : State), exec (.rdstat c) s = .next t → ∀ r, t.response = some r → r.status ≠ .errContext) ∧
    ∀ (c : Ctx) (s t : State), exec (.rddrop c) s = .next t → ∀ r, t.response = some r → r.status ≠ .errContext

/-- Every step either answers no one, or answers exactly the caller whose turn it was: one response, delivered once, its command
gone from the ports and everyone else's still there (30_encoding.md sections 1 and 4). -/
def Obligations.EachCommandAnsweredOnce : Prop :=
  ∀ s t : State, step s = .next t →
    (t.response = none ∧ t.answers = s.answers) ∨
      ∃ n r, turnOf s = .serve n ∧ outstanding s.callers n ≠ none ∧ t.response = some r ∧
        t.answers = ⟨n, r⟩ :: s.answers ∧ outstanding t.callers n = none ∧
        ∀ m, m ≠ n → outstanding t.callers m = outstanding s.callers m

/-- A served command that gets no response is a TAKE of a zero count or a DEQ of an empty queue, from a context that may issue
it; it stays outstanding, and nothing of the block or of any port changes (00_scope.md section 5, `hold until`). -/
def Obligations.OnlyTakeAndDeqHold : Prop :=
  ∀ (s t : State) (n : Nat) (bytes : List Byte), turnOf s = .serve n → outstanding s.callers n = some bytes →
    step s = .next t → t.response = none →
    ((∃ k, bytes = encode (.take .task k) ∧ s.blk.sig k = 0) ∨ (bytes = encode (.deq .worker) ∧ s.blk.queue = [])) ∧
      t.blk = s.blk ∧ t.callers = s.callers ∧ t.answers = s.answers

/-- A caller's turn to issue puts any command, a word that will be illegal too, on its port, behind the others, unless one of its
commands is outstanding; then nothing happens. The transaction of a well-formed instruction is a command, and so is any word with
the operands it declares. A level given to DEVICE_READY changes that input alone (30_encoding.md sections 1 and 6). -/
def Obligations.EnvironmentTurnsTouchNoBlockState : Prop :=
  (∀ (s : State) (n : Nat) (bytes : List Byte), turnOf s = .issue n bytes → isCommand bytes = true →
    step s = .next (if outstanding s.callers n = none
      then { beginTurn s with callers := s.callers ++ [⟨n, bytes⟩] } else beginTurn s)) ∧
    (∀ i : Instr, wellFormed i = true → isCommand (encode i) = true) ∧
    (∀ (w : Word) (operand : List Byte), isCommand (wordBytes w ++ operand) = true ↔ operand.length = operandBytes w) ∧
    (∀ (s : State) (level : Bool), turnOf s = .ready level → step s = .next { beginTurn s with deviceReady := level }) ∧
    ∀ s : State, (beginTurn s).blk = s.blk ∧ (beginTurn s).params = s.params ∧ (beginTurn s).callers = s.callers ∧
      (beginTurn s).deviceReady = s.deviceReady ∧ (beginTurn s).answers = s.answers ∧ (beginTurn s).response = none

/-- R214: classes (a) and (b) are final until reset; a capacity error changes nothing but the drop counter; ERR_ILLEGAL,
ERR_CONTEXT and ERR_STATE change nothing at all of the block. -/
def Obligations.ErrorClassesByOutcome : Prop :=
  (∀ s t : State, s.Inv → step s = .next t → resetsNext s = false → s.blk.state = .cfgfail ∨ s.blk.state = .halted →
    t.blk.state = s.blk.state ∧ t.blk.err = s.blk.err) ∧
    ∀ (s t : State) (r : Response), step s = .next t → t.response = some r →
      (r.status = .full → t.blk = { s.blk with drop := s.blk.drop + 1 }) ∧
        (r.status = .errIllegal ∨ r.status = .errContext ∨ r.status = .errState → t.blk = s.blk)

/-- R192: of two callers held on one signal whose count is 1, whichever takes its turn first completes, and the other goes on
holding. `m` and `n` are any two callers, so either may win. -/
def Obligations.OneWaiterTakesTheRelease : Prop :=
  ∀ (s : State) (m n : Nat) (k : Signal), m ≠ n → s.blk.sig k = 1 → turnOf s = .serve m →
    outstanding s.callers m = some (encode (.take .task k)) → outstanding s.callers n = some (encode (.take .task k)) →
    ∃ t, step s = .next t ∧ t.answers = ⟨m, ⟨.ok, 0, none⟩⟩ :: s.answers ∧ t.blk.sig k = 0 ∧
      outstanding t.callers m = none ∧ outstanding t.callers n = some (encode (.take .task k)) ∧
      (turnOf t = .serve n → ∃ u, step t = .next u ∧ u.answers = t.answers ∧ u.blk = t.blk ∧
        outstanding u.callers n = some (encode (.take .task k)))

/-- R167: with two WORKER callers waiting, whichever takes its turn gets the oldest record and the other the next: removal stays
first in, first out. `m` and `n` are any two callers, so which one is first is free. -/
def Obligations.SeveralWorkersKeepFifoOrder : Prop :=
  ∀ (s : State) (m n : Nat) (r₁ r₂ : List Byte) (rest : List (List Byte)), m ≠ n → s.blk.queue = r₁ :: r₂ :: rest →
    turnOf s = .serve m → outstanding s.callers m = some (encode (.deq .worker)) →
    outstanding s.callers n = some (encode (.deq .worker)) →
    ∃ t, step s = .next t ∧ t.answers = ⟨m, ⟨.ok, 0, some r₁⟩⟩ :: s.answers ∧ t.blk.queue = r₂ :: rest ∧
      (turnOf t = .serve n → ∃ u, step t = .next u ∧ u.answers = ⟨n, ⟨.ok, 0, some r₂⟩⟩ :: t.answers ∧
        u.blk.queue = rest)

/-! ## INIT -/

/-- R112: INIT from TASK, for every state and frequency, with the precedence of its errors; the decode errors come first. -/
def Obligations.InitSemantics : Prop :=
  (∀ (s : State) (freq : Word), exec (.init .task freq) s = .next
    (if s.blk.state ≠ .uninit then { s with response := some ⟨.errState, 0, none⟩ }
     else if s.deviceReady = false then
       { s with blk := { s.blk with state := .cfgfail, err := .deviceNotReady }
                response := some ⟨.errDeviceNotReady, 0, none⟩ }
     else if freq.toNat / s.params.baseRateHz = 0 then
       { s with blk := { s.blk with state := .cfgfail, err := .rateZero }, response := some ⟨.errRateZero, 0, none⟩ }
     else if freq.toNat / s.params.baseRateHz > 2 ^ s.params.tw - 1 then
       { s with blk := { s.blk with state := .cfgfail, err := .rateOverflow }
                response := some ⟨.errRateOverflow, 0, none⟩ }
     else
       { s with
         blk := { s.blk with
           period := freq.toNat / s.params.baseRateHz
           deadline := (s.blk.now + freq.toNat / s.params.baseRateHz) % 2 ^ s.params.tw
           tickPending := false
           elapsed := 0
           state := .running }
         response := some ⟨.ok, BitVec.ofNat 32 (freq.toNat / s.params.baseRateHz), none⟩ })) ∧
    (∀ (s : State) (c : Ctx) (freq : Word), c ≠ .task →
      exec (.init c freq) s = .next { s with response := some ⟨.errContext, 0, none⟩ }) ∧
    ∀ (s : State) (w : Word) (operand : List Byte), opField w = 0x1 → operand.length = 4 →
      ctxField w = 0b11 ∨ selField w ≠ 0 ∨ rsvField w ≠ 0 ∨ lenField w ≠ 0 →
      runCommand .caller (wordBytes w ++ operand) s = .next { s with response := some ⟨.errIllegal, 0, none⟩ }

/-- When INIT finds the device ready: the rate is zero exactly for FREQ below BASE_RATE_HZ, it overflows exactly for FREQ of at
least 2^TW base rates, and otherwise the period is the floor; at TW = 32 nothing overflows (40_initialize.md sections on R113
and R117). -/
def Obligations.PeriodComputation : Prop :=
  ∀ (s : State) (freq : Word), s.params.wf = true → s.blk.state = .uninit → s.deviceReady = true →
    ∃ t, exec (.init .task freq) s = .next t ∧
      (t.blk.err = .rateZero ∧ t.blk.state = .cfgfail ↔ freq.toNat < s.params.baseRateHz) ∧
      (t.blk.err = .rateOverflow ∧ t.blk.state = .cfgfail ↔ 2 ^ s.params.tw * s.params.baseRateHz ≤ freq.toNat) ∧
      (t.blk.state = .running ↔
        s.params.baseRateHz ≤ freq.toNat ∧ freq.toNat < 2 ^ s.params.tw * s.params.baseRateHz) ∧
      (t.blk.state = .running → t.blk.period * s.params.baseRateHz ≤ freq.toNat ∧
        freq.toNat < (t.blk.period + 1) * s.params.baseRateHz ∧
        t.response = some ⟨.ok, BitVec.ofNat 32 t.blk.period, none⟩ ∧
        (BitVec.ofNat 32 t.blk.period).toNat = t.blk.period) ∧
      (s.params.tw = 32 → t.blk.state ≠ .cfgfail ∨ t.blk.err = .rateZero)

/-- R116: INIT, from any context and whatever it answers, leaves the dividers, signals, queue and drop counter alone; a successful
one starts with dividers and signals still at their reset value 0. -/
def Obligations.InitLeavesCountersAndQueue : Prop :=
  ∀ (s : State) (c : Ctx) (freq : Word), ∃ t, exec (.init c freq) s = .next t ∧
    t.blk.cnt10 = s.blk.cnt10 ∧ t.blk.cnt100 = s.blk.cnt100 ∧ (∀ k, t.blk.sig k = s.blk.sig k) ∧
    t.blk.queue = s.blk.queue ∧ t.blk.drop = s.blk.drop ∧
    (s.Inv → s.blk.state = .uninit → t.blk.cnt10 = 0 ∧ t.blk.cnt100 = 0 ∧ ∀ k, t.blk.sig k = 0)

/-- R114, which the spec derives from R112: once an INIT has run, INIT answers ERR_STATE and changes nothing else, and no step
but a reset ever changes the period. -/
def Obligations.PeriodFixedAfterInit : Prop :=
  (∀ (s : State) (freq : Word), s.blk.state ≠ .uninit →
    exec (.init .task freq) s = .next { s with response := some ⟨.errState, 0, none⟩ }) ∧
    ∀ (s t : State) (trace : List State), s.blk.state ≠ .uninit → Run s trace t →
      t.blk.state ≠ .uninit ∧ t.blk.period = s.blk.period

/-- R115: an INIT that answers a configuration error leaves CFGFAIL with the same code as its cause; from then on, until reset:
CFGFAIL, that cause readable in STATUS.ERR, no alarm, no release, and INIT answers ERR_STATE. -/
def Obligations.ConfigurationErrorIsFinal : Prop :=
  (∀ (s t : State) (c : Ctx) (freq : Word) (r : Response), exec (.init c freq) s = .next t → t.response = some r →
    r.status = .errDeviceNotReady ∨ r.status = .errRateZero ∨ r.status = .errRateOverflow →
    t.blk.state = .cfgfail ∧ t.blk.err.code = r.status.code) ∧
  ∀ (s t : State) (trace : List State), s.Inv → s.blk.state = .cfgfail → Run s trace t →
    t.blk.state = .cfgfail ∧ t.blk.err = s.blk.err ∧ t.blk.tickPending = false ∧
      (∀ k, t.blk.sig k ≤ s.blk.sig k) ∧
      (∀ freq, exec (.init .task freq) t = .next { t with response := some ⟨.errState, 0, none⟩ }) ∧
      ∀ c, ∃ v : Word, exec (.rdstat c) t = .next { t with response := some ⟨.ok, v, none⟩ } ∧
        v.extractLsb' 8 8 = s.blk.err.code

/-! ## The timer -/

/-- R130: one TIMER_COUNT step, enabled unless R144 holds it, and all it does to the block. -/
def Obligations.TimerCountStep : Prop :=
  ∀ s : State, turnOf s = .count →
    (∀ bound, s.params.latencyBound = some bound → ¬(s.blk.tickPending = true ∧ s.blk.elapsed = bound)) →
    step s = .next { beginTurn s with blk :=
      (if s.blk.tickPending = true then
        { s.blk with
          now := (s.blk.now + 1) % 2 ^ s.params.tw
          elapsed := min (s.blk.elapsed + 1) (2 ^ s.params.tw - 1) }
      else if s.blk.state = .running ∧ (s.blk.now + 1) % 2 ^ s.params.tw = s.blk.deadline then
        { s.blk with now := (s.blk.now + 1) % 2 ^ s.params.tw, tickPending := true, elapsed := 0 }
      else { s.blk with now := (s.blk.now + 1) % 2 ^ s.params.tw }) }

/-- R131: over all steps, an expiry is raised by a timer count that reaches the deadline while RUNNING with none pending, and by
nothing else; while one is pending a count raises no second but adds to the lateness. -/
def Obligations.ExpiryExactlyAtTheDeadline : Prop :=
  (∀ s t : State, step s = .next t → s.blk.tickPending = false →
    (t.blk.tickPending = true ↔
      countsNext s = true ∧ s.blk.state = .running ∧ (s.blk.now + 1) % 2 ^ s.params.tw = s.blk.deadline) ∧
    (t.blk.tickPending = true → t.blk.elapsed = 0)) ∧
    ∀ s t : State, step s = .next t → s.blk.tickPending = true → countsNext s = true →
      t.blk.tickPending = true ∧ t.blk.elapsed = min (s.blk.elapsed + 1) (2 ^ s.params.tw - 1)

/-- R144: with no bound every count turn counts; with bound `L` none counts while a service is pending and `elapsed = L`; and
with `L` below the period no re-arm of the run is ever late. -/
def Obligations.LatencyBoundPreventsLateness : Prop :=
  (∀ s : State, turnOf s = .count → s.params.latencyBound = none →
    ∃ t, step s = .next t ∧ t.blk.now = (s.blk.now + 1) % 2 ^ s.params.tw) ∧
    (∀ (s : State) (bound : Nat), turnOf s = .count → s.params.latencyBound = some bound → s.blk.tickPending = true →
      s.blk.elapsed = bound → step s = .next (beginTurn s)) ∧
    ∀ (s t : State) (trace : List State) (bound : Nat), s.Inv → s.blk.state = .running →
      s.params.latencyBound = some bound → bound < s.blk.period → s.blk.elapsed ≤ bound → Run s trace t →
      t.blk.err ≠ .rearmLate

/-- From a RUNNING block with no expiry pending whose deadline is `d` counts away (at most one turn of the counter), exactly `d`
timer counts bring the expiry, and change nothing else (41_tick.md section 1). -/
def Obligations.ExpiryAfterTheRemainingCounts : Prop :=
  ∀ (s : State) (d : Nat) (rest : List Turn), s.blk.state = .running → s.blk.tickPending = false → 1 ≤ d →
    d ≤ 2 ^ s.params.tw → (s.blk.now + d) % 2 ^ s.params.tw = s.blk.deadline →
    s.agenda = List.replicate d .count ++ rest →
    steps d s = .next { s with
      blk := { s.blk with now := s.blk.deadline, tickPending := true, elapsed := 0 }, agenda := rest, response := none }

/-! ## The tick service -/

/-- R134: TICK when an expiry is pending, with every field it writes; no step of it when none is; its word, OP 0x2, is the
alarm's. -/
def Obligations.TickSemantics : Prop :=
  (∀ s : State, s.blk.tickPending = true →
    ∃ b : Block, exec .tick s = .next { s with
        blk := b, draws := s.draws + (if s.params.rearmMayFail then 1 else 0), response := none } ∧
      b.tickPending = false ∧ b.elapsed = 0 ∧
      b.sigBase = (if s.blk.sigBase = s.params.sigLimit then s.blk.sigBase else s.blk.sigBase + 1) ∧
      (if s.blk.cnt10 + 1 = s.params.divA
        then b.cnt10 = 0 ∧ b.sigD10 = (if s.blk.sigD10 = s.params.sigLimit then s.blk.sigD10 else s.blk.sigD10 + 1)
        else b.cnt10 = s.blk.cnt10 + 1 ∧ b.sigD10 = s.blk.sigD10) ∧
      (if s.blk.cnt100 + 1 = s.params.divB
        then b.cnt100 = 0 ∧
          b.sigD100 = (if s.blk.sigD100 = s.params.sigLimit then s.blk.sigD100 else s.blk.sigD100 + 1)
        else b.cnt100 = s.blk.cnt100 + 1 ∧ b.sigD100 = s.blk.sigD100) ∧
      (if s.blk.period ≤ s.blk.elapsed
        then b.state = .halted ∧ b.err = .rearmLate ∧ b.deadline = s.blk.deadline
        else if (s.params.rearmMayFail && Config.freeBool s.draws) = true
          then b.state = .halted ∧ b.err = .rearmDevice ∧ b.deadline = s.blk.deadline
          else b.state = s.blk.state ∧ b.err = s.blk.err ∧
            b.deadline = (s.blk.deadline + s.blk.period) % 2 ^ s.params.tw) ∧
      b.period = s.blk.period ∧ b.now = s.blk.now ∧ b.queue = s.blk.queue ∧ b.drop = s.blk.drop) ∧
    (∀ s : State, s.blk.tickPending = false → exec .tick s = .next { s with response := none }) ∧
    decode .alarm (wordBytes 0x20000000) = .instr .tick ∧ decode .caller (wordBytes 0x20000000) = .illegal

/-- Every TICK releases the base signal once, also the one whose re-arm fails (R135, which the spec derives from R134). -/
def Obligations.EveryTickReleasesBase : Prop :=
  ∀ s : State, s.Inv → s.blk.tickPending = true →
    ∃ t, exec .tick s = .next t ∧ t.blk.sigBase = min (s.blk.sigBase + 1) s.params.sigLimit ∧
      (s.blk.period ≤ s.blk.elapsed → t.blk.state = .halted)

/-- R136 and R137: each divider counts modulo its ratio and releases its signal on the tick that brings it back to 0, on no other;
both read only the tick count: two machines that differ in the counter, the alarm, the period and the lateness get the same
divider values and releases. -/
def Obligations.DividersCountTicksOnly : Prop :=
  (∀ s : State, s.Inv → s.blk.tickPending = true →
    ∃ t, exec .tick s = .next t ∧
      t.blk.cnt10 = (s.blk.cnt10 + 1) % s.params.divA ∧ t.blk.cnt100 = (s.blk.cnt100 + 1) % s.params.divB ∧
      t.blk.sigD10 = (if (s.blk.cnt10 + 1) % s.params.divA = 0
        then min (s.blk.sigD10 + 1) s.params.sigLimit else s.blk.sigD10) ∧
      t.blk.sigD100 = (if (s.blk.cnt100 + 1) % s.params.divB = 0
        then min (s.blk.sigD100 + 1) s.params.sigLimit else s.blk.sigD100)) ∧
    ∀ (s s' : State), s.params = s'.params → s.blk.tickPending = true → s'.blk.tickPending = true →
      s.blk.cnt10 = s'.blk.cnt10 → s.blk.cnt100 = s'.blk.cnt100 → (∀ k, s.blk.sig k = s'.blk.sig k) →
      ∃ t t', exec .tick s = .next t ∧ exec .tick s' = .next t' ∧ t.blk.cnt10 = t'.blk.cnt10 ∧
        t.blk.cnt100 = t'.blk.cnt100 ∧ ∀ k, t.blk.sig k = t'.blk.sig k

/-- R138: a re-arm that succeeds goes one period on from the previous deadline, whatever the counter says; it is late exactly when
the lateness has reached the period; a service one count short of that re-arms (unless the device refuses, R139), and the very
next count expires. -/
def Obligations.RearmFromThePreviousDeadline : Prop :=
  ∀ s : State, s.Inv → s.blk.tickPending = true →
    ∃ t, exec .tick s = .next t ∧
      (s.blk.period ≤ s.blk.elapsed ↔ t.blk.state = .halted ∧ t.blk.err = .rearmLate) ∧
      (t.blk.state = .halted → t.blk.deadline = s.blk.deadline) ∧
      (t.blk.state ≠ .halted → t.blk.state = .running ∧
        t.blk.deadline = (s.blk.deadline + s.blk.period) % 2 ^ s.params.tw) ∧
      (s.blk.elapsed < s.blk.period → s.params.rearmMayFail = false → t.blk.state = .running) ∧
      (s.blk.elapsed + 1 = s.blk.period → t.blk.state = .running → countEnabled t.params t.blk = true ∧
        (timerCount t.params t.blk).tickPending = true)

/-- R139: under REARM_MAY_FAIL a re-arm that is not late fails exactly when the draw, a free value, says so, with 0xA1; otherwise
only lateness makes a re-arm fail. -/
def Obligations.RearmDeviceFailure : Prop :=
  ∀ s : State, s.Inv → s.blk.tickPending = true → s.blk.elapsed < s.blk.period →
    ∃ t, exec .tick s = .next t ∧
      (s.params.rearmMayFail = false → t.blk.state = .running ∧ t.blk.err = .none) ∧
      (s.params.rearmMayFail = true → if Config.freeBool s.draws = true
        then t.blk.state = .halted ∧ t.blk.err.code = 0xA1 ∧ t.blk.deadline = s.blk.deadline
        else t.blk.state = .running ∧ t.blk.err = .none)

/-- R140: a failed re-arm halts with its cause, the deadline kept and the tick's releases standing; from then on, until reset: HALTED, the
same cause, no expiry and no release, counts that only TAKEs lower, a zero count held for ever, a queue that still works. -/
def Obligations.HaltLastsUntilReset : Prop :=
  (∀ s t : State, s.Inv → s.blk.tickPending = true → exec .tick s = .next t → t.blk.state = .halted →
    t.blk.err = (if s.blk.period ≤ s.blk.elapsed then .rearmLate else .rearmDevice) ∧
      t.blk.deadline = s.blk.deadline ∧ t.blk.sigBase = min (s.blk.sigBase + 1) s.params.sigLimit ∧
      t.blk.cnt10 = (s.blk.cnt10 + 1) % s.params.divA ∧ t.blk.cnt100 = (s.blk.cnt100 + 1) % s.params.divB ∧
      t.blk.sigD10 = (if (s.blk.cnt10 + 1) % s.params.divA = 0
        then min (s.blk.sigD10 + 1) s.params.sigLimit else s.blk.sigD10) ∧
      t.blk.sigD100 = (if (s.blk.cnt100 + 1) % s.params.divB = 0
        then min (s.blk.sigD100 + 1) s.params.sigLimit else s.blk.sigD100)) ∧
    ∀ (s t : State) (trace : List State), s.Inv → s.blk.state = .halted → Run s trace t →
      t.blk.state = .halted ∧ t.blk.err = s.blk.err ∧ t.blk.deadline = s.blk.deadline ∧ t.blk.tickPending = false ∧
        (∀ c, ∃ v : Word, exec (.rdstat c) t = .next { t with response := some ⟨.ok, v, none⟩ } ∧
          v.extractLsb' 0 2 = 2 ∧ v.extractLsb' 8 8 = s.blk.err.code) ∧
        (∀ k, t.blk.sig k ≤ s.blk.sig k ∧
          (0 < t.blk.sig k → ∃ u, exec (.take .task k) t = .next u ∧ u.response = some ⟨.ok, 0, none⟩ ∧
            u.blk.sig k + 1 = t.blk.sig k) ∧
          (t.blk.sig k = 0 → exec (.take .task k) t = .next { t with response := none })) ∧
        (∀ (c : Ctx) (l : BitVec 16) (b : List Byte), b.length = l.toNat → t.blk.queue.length < t.params.qcap →
          ∃ u, exec (.enq c l b) t = .next u ∧ u.response = some ⟨.ok, 1, none⟩) ∧
        ∀ r rest, t.blk.queue = r :: rest → ∃ u, exec (.deq .worker) t = .next u ∧
          u.response = some ⟨.ok, 0, some r⟩

/-- R213: the service answers no one; a failed re-arm, late or refused by the device, sets STATE and ERR for any context to read in
STATUS. -/
def Obligations.ServiceErrorsReachStatusOnly : Prop :=
  ∀ s : State, turnOf s = .service → ∃ t, step s = .next t ∧ t.answers = s.answers ∧ t.response = none ∧
    (s.Inv → s.blk.tickPending = true →
      (t.blk.state = .halted ↔ s.blk.period ≤ s.blk.elapsed ∨ deviceDraw (beginTurn s) = true) ∧
      (t.blk.state = .halted → ∀ c, exec (.rdstat c) t = .next { t with
        response := some ⟨.ok, if s.blk.period ≤ s.blk.elapsed then 0x0000A002 else 0x0000A102, none⟩ }))

/-- R141 (which the spec derives): no drift. In any run from just after INIT in which the block is still RUNNING, `n` being the
services and `c` the timer counts so far and `P` the period: the alarm stands `n + 1` periods after INIT's counter value, whatever
the latency of each service was; an expiry is pending exactly from count `(n + 1)·P` on, so expiry `n + 1` comes at count
`(n + 1)·P` and no other. -/
def Obligations.NoDriftWhateverTheJitter : Prop :=
  ∀ (s t : State) (trace : List State), s.Inv → s.blk.state = .running → s.blk.tickPending = false →
    s.blk.deadline = (s.blk.now + s.blk.period) % 2 ^ s.params.tw → Run s trace t → t.blk.state = .running →
    t.blk.period = s.blk.period ∧
      t.blk.now = (s.blk.now + counts trace) % 2 ^ s.params.tw ∧
      t.blk.deadline = (s.blk.now + (ticks trace + 1) * s.blk.period) % 2 ^ s.params.tw ∧
      ticks trace * s.blk.period ≤ counts trace ∧
      (t.blk.tickPending = true ↔ (ticks trace + 1) * s.blk.period ≤ counts trace) ∧
      (t.blk.tickPending = true →
        t.blk.elapsed = min (counts trace - (ticks trace + 1) * s.blk.period) (2 ^ s.params.tw - 1))

/-- R142 (which the spec derives): phase lock. In any run from reset, for any parameters, counter draw, readiness and agenda, `n`
being the services so far: both dividers are `n` modulo their ratio, and the next service releases the 1/10-rate signal exactly
when `n + 1` is a multiple of DIV_A and the 1/100-rate signal exactly when it is one of DIV_B (a release at SIG_LIMIT saturates). -/
def Obligations.PhaseLockFromReset : Prop :=
  ∀ (p : Params) (draw : Nat) (ready : Bool) (agenda : List Turn) (trace : List State) (m t : State), p.wf = true →
    Run (State.resetWith p draw ready agenda) trace m → step m = .next t →
    m.blk.cnt10 = ticks trace % p.divA ∧ m.blk.cnt100 = ticks trace % p.divB ∧
      (servicesNext m = true →
        t.blk.sigBase = min (m.blk.sigBase + 1) p.sigLimit ∧
        t.blk.sigD10 = (if (ticks trace + 1) % p.divA = 0 then min (m.blk.sigD10 + 1) p.sigLimit else m.blk.sigD10) ∧
        t.blk.sigD100 =
          (if (ticks trace + 1) % p.divB = 0 then min (m.blk.sigD100 + 1) p.sigLimit else m.blk.sigD100))

/-- R142's release counts: in a run from reset in which no TAKE has been served, with at most SIG_LIMIT services, the signals hold `n`, `floor(n / DIV_A)` and `floor(n / DIV_B)` releases after `n` services. -/
def Obligations.ReleaseCountsFromReset : Prop :=
  ∀ (p : Params) (draw : Nat) (ready : Bool) (agenda : List Turn) (trace : List State) (t : State), p.wf = true →
    Run (State.resetWith p draw ready agenda) trace t →
    (∀ m ∈ trace, ∀ c k, ∀ n, instrNext m ≠ some (n, .take c k)) → ticks trace ≤ p.sigLimit →
    t.blk.sigBase = ticks trace ∧ t.blk.sigD10 = ticks trace / p.divA ∧ t.blk.sigD100 = ticks trace / p.divB

/-- R68's first item: no step gives a derived release without a base release of the same tick (the base count grows with it, or
already stands at SIG_LIMIT). -/
def Obligations.DerivedReleaseOnlyWithBase : Prop :=
  ∀ s t : State, s.Inv → step s = .next t → s.blk.sigD10 < t.blk.sigD10 ∨ s.blk.sigD100 < t.blk.sigD100 →
    servicesNext s = true ∧ t.blk.sigBase = min (s.blk.sigBase + 1) s.params.sigLimit

/-! ## The queue -/

/-- R160: ENQ, from every context, in every state: on a full queue a counted drop, else one record appended whose first
`min(LEN, REC)` bytes are the payload's and whose other bytes, up to REC, are draws (free values); a malformed ENQ word answers
ERR_ILLEGAL and changes nothing else. -/
def Obligations.EnqSemantics : Prop :=
  (∀ (b : List Byte), b.length = 5 → decode .caller (wordBytes 0x34000005 ++ b) = .instr (.enq .isr 5 b)) ∧
  (∀ (s : State) (w : Word) (b : List Byte), opField w = 0x3 → b.length = (lenField w).toNat →
    ctxField w = 0b11 ∨ selField w ≠ 0 ∨ rsvField w ≠ 0 →
    runCommand .caller (wordBytes w ++ b) s = .next { s with response := some ⟨.errIllegal, 0, none⟩ }) ∧
  ∀ (s : State) (c : Ctx) (l : BitVec 16) (payload : List Byte), payload.length = l.toNat →
    (s.blk.queue.length = s.params.qcap → exec (.enq c l payload) s = .next { s with
      blk := { s.blk with drop := s.blk.drop + 1 }, response := some ⟨.full, 0, none⟩ }) ∧
      (s.blk.queue.length ≠ s.params.qcap → ∃ r : List Byte, exec (.enq c l payload) s = .next { s with
          blk := { s.blk with queue := s.blk.queue ++ [r] }
          draws := s.draws + (s.params.recBytes - min l.toNat s.params.recBytes)
          response := some ⟨.ok, 1, none⟩ } ∧
        r.length = s.params.recBytes ∧
        (∀ i, i < min l.toNat s.params.recBytes → r[i]? = payload[i]?) ∧
        ∀ i, min l.toNat s.params.recBytes ≤ i → i < s.params.recBytes →
          r[i]? = some (Config.freeByte (s.draws + (i - min l.toNat s.params.recBytes))))

/-- R161: a full queue stores nothing, counts the drop modulo 2^32 and answers FULL with value 0; RDDROP then reads the count. -/
def Obligations.FullQueueCountsTheDrop : Prop :=
  ∀ (s : State) (c c' : Ctx) (l : BitVec 16) (payload : List Byte), payload.length = l.toNat →
    s.blk.queue.length = s.params.qcap →
    ∃ t u, exec (.enq c l payload) s = .next t ∧ t.blk.queue = s.blk.queue ∧
      t.blk.drop.toNat = (s.blk.drop.toNat + 1) % 2 ^ 32 ∧ t.response = some ⟨.full, 0, none⟩ ∧
      exec (.rddrop c') t = .next u ∧ u.response = some ⟨.ok, t.blk.drop, none⟩

/-- R162: ENQ stores the first `min(LEN, REC)` bytes and throws the rest away without error or count: of a payload of REC bytes or
more exactly the first REC, with no draw; a payload of exactly REC bytes is stored whole; one of fewer keeps all its bytes first;
one of no bytes is accepted with a record of REC drawn bytes. -/
def Obligations.EnqTruncatesToTheRecord : Prop :=
  (∀ (s : State) (c : Ctx) (l : BitVec 16) (b : List Byte), b.length = l.toNat → s.params.recBytes ≤ l.toNat →
    s.blk.queue.length ≠ s.params.qcap → exec (.enq c l b) s = .next { s with
      blk := { s.blk with queue := s.blk.queue ++ [b.take s.params.recBytes] }, response := some ⟨.ok, 1, none⟩ }) ∧
    (∀ (s : State) (c : Ctx) (l : BitVec 16) (b : List Byte), b.length = l.toNat → l.toNat = s.params.recBytes →
      s.blk.queue.length ≠ s.params.qcap → exec (.enq c l b) s = .next { s with
        blk := { s.blk with queue := s.blk.queue ++ [b] }, response := some ⟨.ok, 1, none⟩ }) ∧
    (∀ (s : State) (c : Ctx) (l : BitVec 16) (b : List Byte), b.length = l.toNat → l.toNat < s.params.recBytes →
      s.blk.queue.length ≠ s.params.qcap → ∃ t r, exec (.enq c l b) s = .next t ∧
        t.blk = { s.blk with queue := s.blk.queue ++ [b ++ r] } ∧ (b ++ r).length = s.params.recBytes ∧
        t.response = some ⟨.ok, 1, none⟩) ∧
    ∀ (s : State) (c : Ctx), s.blk.queue.length ≠ s.params.qcap → ∃ t r, exec (.enq c 0 []) s = .next t ∧
      t.blk.queue = s.blk.queue ++ [r] ∧ r.length = s.params.recBytes ∧ t.response = some ⟨.ok, 1, none⟩ ∧
      ∀ i, i < s.params.recBytes → r[i]? = some (Config.freeByte (s.draws + i))

/-- R165: DEQ from WORKER, in every state: it removes and returns the head, or holds on an empty queue; from another context it
answers ERR_CONTEXT at once and a malformed word ERR_ILLEGAL, also when the queue is empty. -/
def Obligations.DeqSemantics : Prop :=
  (∀ (s : State) (r : List Byte) (rest : List (List Byte)), s.blk.queue = r :: rest →
    exec (.deq .worker) s = .next { s with
      blk := { s.blk with queue := rest }, response := some ⟨.ok, 0, some r⟩ }) ∧
    (∀ s : State, s.blk.queue = [] → exec (.deq .worker) s = .next { s with response := none }) ∧
    (∀ (s : State) (c : Ctx), c ≠ .worker →
      exec (.deq c) s = .next { s with response := some ⟨.errContext, 0, none⟩ }) ∧
    decode .caller (wordBytes 0x48000000) = .instr (.deq .worker) ∧
    ∀ (s : State) (w : Word), opField w = 0x4 → ctxField w = 0b11 ∨ selField w ≠ 0 ∨ rsvField w ≠ 0 ∨ lenField w ≠ 0 →
      runCommand .caller (wordBytes w) s = .next { s with response := some ⟨.errIllegal, 0, none⟩ }

/-- R166: a DEQ held on an empty queue stays outstanding through every step but a reset, unless its own turn finds a record; the
queue stops being empty only by an accepted ENQ, after which the DEQ completes with that record on its turn. -/
def Obligations.OnlyAnAcceptedEnqLiftsADeq : Prop :=
  ∀ (s t : State) (n : Nat), s.blk.queue = [] → outstanding s.callers n = some (encode (.deq .worker)) →
    step s = .next t → resetsNext s = false →
    outstanding t.callers n = some (encode (.deq .worker)) ∧
      (t.blk.queue ≠ [] → (∃ m c l b, instrNext s = some (some m, .enq c l b) ∧ t.response = some ⟨.ok, 1, none⟩) ∧
        ∃ r, t.blk.queue = [r] ∧ (turnOf t = .serve n → ∃ u, step t = .next u ∧
          u.answers = ⟨n, ⟨.ok, 0, some r⟩⟩ :: t.answers ∧ u.blk.queue = [] ∧ outstanding u.callers n = none))

/-- R169: the queue does not depend on the rate generator. ENQ, DEQ and RDDROP answer the same, and do the same to queue, drop
counter and draws, in any two machines that agree on these, whatever their `S.state`; INIT and TICK (a halt among them) leave
queue and drop counter alone. -/
def Obligations.QueueIndependentOfGenerator : Prop :=
  (∀ (s s' : State) (i : Instr), sameQueueView s s' → wellFormed i = true →
    (∃ c l b, i = .enq c l b) ∨ (∃ c, i = .deq c) ∨ (∃ c, i = .rddrop c) →
    ∃ t t', exec i s = .next t ∧ exec i s' = .next t' ∧ t.response = t'.response ∧ sameQueueView t t') ∧
    ∀ (s t : State) (i : Instr), (∃ c f, i = .init c f) ∨ i = .tick → exec i s = .next t →
      t.blk.queue = s.blk.queue ∧ t.blk.drop = s.blk.drop

/-- R170 (which the spec derives): QCAP + 1 ENQs on an empty queue with drop 0, of any payloads from any contexts and in any state
of the generator: QCAP answers OK, one FULL, drop 1; then QCAP DEQs return the first QCAP payloads in ENQ order, and a further
DEQ holds. -/
def Obligations.OverflowDropsOneAndDrainsInOrder : Prop :=
  ∀ (s : State) (items : List (Ctx × BitVec 16 × List Byte)), s.blk.queue = [] → s.blk.drop = 0 →
    items.length = s.params.qcap + 1 → (∀ x ∈ items, x.2.2.length = x.2.1.toNat) →
    ∃ t u : State, ∃ records : List (List Byte),
      execAll (items.map fun x => .enq x.1 x.2.1 x.2.2) s =
        some (t, List.replicate s.params.qcap ⟨.ok, 1, none⟩ ++ [⟨.full, 0, none⟩]) ∧
      t.blk.drop = 1 ∧ records.length = s.params.qcap ∧
      (∀ (i : Nat) (r : List Byte) (x : Ctx × BitVec 16 × List Byte), records[i]? = some r → items[i]? = some x →
        r.length = s.params.recBytes ∧ r.take x.2.2.length = x.2.2.take s.params.recBytes) ∧
      execAll (List.replicate s.params.qcap (.deq .worker)) t = some (u, records.map fun r => ⟨.ok, 0, some r⟩) ∧
      u.blk.drop = 1 ∧ exec (.deq .worker) u = .next { u with response := none }

/-- R68's third item over whole runs: what was queued at the start of a run, then the records of the ENQs the run answered OK, are
in that order the records delivered in the run, then those still queued: nothing is lost, doubled or overtaken. A record is
`recordOf` of its ENQ's payload, which is what R160 says an accepted ENQ stores. -/
def Obligations.RecordsLeaveInOrder : Prop :=
  ∀ (s t : State) (trace : List State), Run s trace t →
    s.blk.queue ++ accepted trace = recordsAfter s.answers.length t ++ t.blk.queue

/-! ## Signals and inspection -/

/-- R190: TAKE from TASK, in every state: one count of the selected signal and nothing else, or a hold; from another context it
answers ERR_CONTEXT at once, and a malformed word (SEL = 0b11 among them) ERR_ILLEGAL. -/
def Obligations.TakeSemantics : Prop :=
  (∀ (s : State) (k : Signal), 0 < s.blk.sig k → ∃ b : Block,
    exec (.take .task k) s = .next { s with blk := b, response := some ⟨.ok, 0, none⟩ } ∧
      b.sig k = s.blk.sig k - 1 ∧ (∀ j, j ≠ k → b.sig j = s.blk.sig j) ∧
      { b with sigBase := 0, sigD10 := 0, sigD100 := 0 } = { s.blk with sigBase := 0, sigD10 := 0, sigD100 := 0 }) ∧
    (∀ (s : State) (k : Signal), s.blk.sig k = 0 → exec (.take .task k) s = .next { s with response := none }) ∧
    (∀ (s : State) (c : Ctx) (k : Signal), c ≠ .task →
      exec (.take c k) s = .next { s with response := some ⟨.errContext, 0, none⟩ }) ∧
    (decode .caller (wordBytes 0x50000000) = .instr (.take .task .base) ∧
      decode .caller (wordBytes 0x51000000) = .instr (.take .task .d10) ∧
      decode .caller (wordBytes 0x52000000) = .instr (.take .task .d100)) ∧
    ∀ (s : State) (w : Word), opField w = 0x5 → ctxField w = 0b11 ∨ selField w = 0b11 ∨ rsvField w ≠ 0 ∨ lenField w ≠ 0 →
      runCommand .caller (wordBytes w) s = .next { s with response := some ⟨.errIllegal, 0, none⟩ }

/-- R191: a zero count becomes non-zero only by a TICK release, and not at all while the block is not RUNNING; a TAKE held on it
stays outstanding through every other step but a reset, before INIT as well. -/
def Obligations.OnlyAReleaseLiftsATake : Prop :=
  ∀ (s t : State) (k : Signal) (n : Nat), s.Inv → s.blk.sig k = 0 →
    outstanding s.callers n = some (encode (.take .task k)) → step s = .next t → resetsNext s = false →
    outstanding t.callers n = some (encode (.take .task k)) ∧
      (t.blk.sig k ≠ 0 → servicesNext s = true ∧ s.blk.state = .running) ∧
      (turnOf t = .serve n → t.blk.sig k ≠ 0 → ∃ u, step t = .next u ∧
        u.answers = ⟨n, ⟨.ok, 0, none⟩⟩ :: t.answers ∧ u.blk.sig k + 1 = t.blk.sig k)

/-- R193's backlog: as many TAKEs as the signal counts complete one after another without holding, and the next one holds. -/
def Obligations.BacklogCompletesWithoutHolding : Prop :=
  ∀ (s : State) (k : Signal), ∃ t, execAll (List.replicate (s.blk.sig k) (.take .task k)) s =
      some (t, List.replicate (s.blk.sig k) ⟨.ok, 0, none⟩) ∧
    t.blk.sig k = 0 ∧ (∀ j, j ≠ k → t.blk.sig j = s.blk.sig j) ∧ t.blk.queue = s.blk.queue ∧
    exec (.take .task k) t = .next { t with response := none }

/-- R196: RDSTAT, from every context and in every state, changes nothing and returns STATUS: STATE in bits 1:0, ERR in bits 15:8,
every other bit 0, with the codes of R20 and R92; a malformed word answers ERR_ILLEGAL. -/
def Obligations.RdstatReturnsStatus : Prop :=
  (decode .caller (wordBytes 0x60000000) = .instr (.rdstat .task) ∧
    decode .caller (wordBytes 0x64000000) = .instr (.rdstat .isr) ∧
    decode .caller (wordBytes 0x68000000) = .instr (.rdstat .worker)) ∧
  (∀ (s : State) (w : Word), opField w = 0x6 → ctxField w = 0b11 ∨ selField w ≠ 0 ∨ rsvField w ≠ 0 ∨ lenField w ≠ 0 →
    runCommand .caller (wordBytes w) s = .next { s with response := some ⟨.errIllegal, 0, none⟩ }) ∧
  ∀ (s : State) (c : Ctx), ∃ v : Word, exec (.rdstat c) s = .next { s with response := some ⟨.ok, v, none⟩ } ∧
    v.extractLsb' 2 6 = 0 ∧ v.extractLsb' 16 16 = 0 ∧
    v.extractLsb' 0 2 = (match s.blk.state with
      | .uninit => 0
      | .running => 1
      | .halted => 2
      | .cfgfail => 3) ∧
    v.extractLsb' 8 8 = (match s.blk.err with
      | .none => 0x00
      | .deviceNotReady => 0x90
      | .rateZero => 0x91
      | .rateOverflow => 0x92
      | .rearmLate => 0xA0
      | .rearmDevice => 0xA1)

/-- R198: RDDROP, from every context and in every state, changes nothing and returns the drop counter; so a second one returns the
same; a malformed word answers ERR_ILLEGAL. -/
def Obligations.RddropReturnsTheDropCounter : Prop :=
  (decode .caller (wordBytes 0x70000000) = .instr (.rddrop .task) ∧
    decode .caller (wordBytes 0x74000000) = .instr (.rddrop .isr) ∧
    decode .caller (wordBytes 0x78000000) = .instr (.rddrop .worker)) ∧
  (∀ (s : State) (w : Word), opField w = 0x7 → ctxField w = 0b11 ∨ selField w ≠ 0 ∨ rsvField w ≠ 0 ∨ lenField w ≠ 0 →
    runCommand .caller (wordBytes w) s = .next { s with response := some ⟨.errIllegal, 0, none⟩ }) ∧
  ∀ (s : State) (c c' : Ctx),
    exec (.rddrop c) s = .next { s with response := some ⟨.ok, s.blk.drop, none⟩ } ∧
      execAll [.rddrop c, .rddrop c'] s = some ({ s with response := some ⟨.ok, s.blk.drop, none⟩ },
        [⟨.ok, s.blk.drop, none⟩, ⟨.ok, s.blk.drop, none⟩])

/-! ## The whole machine -/

/-- R40 (which the spec derives), the legal values of R20 and the lateness of R132: every step keeps the invariant. -/
def Obligations.StepKeepsInvariant : Prop :=
  ∀ s t : State, s.Inv → step s = .next t → t.Inv

/-- The reset state meets the invariant, for every legal parameter set, counter draw, readiness and agenda. -/
def Obligations.ResetMeetsInvariant : Prop :=
  (∀ (p : Params) (draw : Nat) (ready : Bool) (agenda : List Turn), p.wf = true →
    (State.resetWith p draw ready agenda).Inv) ∧ State.reset.Inv

/-- R240: reset, from any state, puts every field of `S` at its value, the counter at the draw, and leaves no command outstanding. -/
def Obligations.ResetPutsEveryField : Prop :=
  ∀ (s : State) (draw : Nat), turnOf s = .reset draw → ∃ t, step s = .next t ∧ t.callers = [] ∧
    t.blk = { state := .uninit, err := .none, period := 0, now := draw % 2 ^ s.params.tw, deadline := 0
              tickPending := false, elapsed := 0, cnt10 := 0, cnt100 := 0, sigBase := 0, sigD10 := 0, sigD100 := 0
              queue := [], drop := 0 }

/-- R39 (which the spec derives): which steps change which field, reset apart. R112's INIT also assigns `tick_pending` and `elapsed`,
which the table does not name: in any state those two may change by INIT as well, and in a state that meets the invariant, where
an UNINIT block has both at 0 already, they change only as the table says. That no step writes the parameters is the model's
choice (log 1). -/
def Obligations.FieldsWrittenOnlyAsTabled : Prop :=
  ∀ s t : State, step s = .next t → t.params = s.params ∧ (resetsNext s = false →
    (t.blk.now ≠ s.blk.now → countsNext s = true) ∧
    (t.blk.cnt10 ≠ s.blk.cnt10 ∨ t.blk.cnt100 ≠ s.blk.cnt100 → servicesNext s = true) ∧
    (t.blk.period ≠ s.blk.period → ∃ n c f, instrNext s = some (n, .init c f)) ∧
    (t.blk.deadline ≠ s.blk.deadline ∨ t.blk.state ≠ s.blk.state ∨ t.blk.err ≠ s.blk.err →
      servicesNext s = true ∨ ∃ n c f, instrNext s = some (n, .init c f)) ∧
    (t.blk.tickPending ≠ s.blk.tickPending ∨ t.blk.elapsed ≠ s.blk.elapsed →
      countsNext s = true ∨ servicesNext s = true ∨ ∃ n c f, instrNext s = some (n, .init c f)) ∧
    (s.Inv → t.blk.tickPending ≠ s.blk.tickPending ∨ t.blk.elapsed ≠ s.blk.elapsed →
      countsNext s = true ∨ servicesNext s = true) ∧
    (∀ k, t.blk.sig k ≠ s.blk.sig k → servicesNext s = true ∨ ∃ n c, instrNext s = some (n, .take c k)) ∧
    (t.blk.queue ≠ s.blk.queue → (∃ n c l b, instrNext s = some (n, .enq c l b)) ∨
      ∃ n c, instrNext s = some (n, .deq c)) ∧
    (t.blk.drop ≠ s.blk.drop → ∃ n c l b, instrNext s = some (n, .enq c l b)))

/-- No step of a machine that meets the invariant stops, but for bytes the transcriber refuses (R13: the block raises no trap;
41_tick.md section 2 and 60_exceptions.md section 5: a HALTED or CFGFAIL block goes on). -/
def Obligations.OnlyTheTranscriberStops : Prop :=
  ∀ s : State, s.Inv → (∃ t, step s = .next t) ∨
    ∃ n bytes, turnOf s = .issue n bytes ∧ isCommand bytes = false ∧ step s = .refused .notACommand

/-- R253 (which the spec derives): no rule depends on the absolute counter value. Turning the counter and the alarm of a machine by
any number of counts and then taking a step that is not a reset gives the same as taking the step and then turning them. -/
def Obligations.CounterOriginIsInvisible : Prop :=
  ∀ (s : State) (c : Nat), s.Inv → resetsNext s = false →
    step (s.turned c) = mapNext (State.turned c) (step s)

/-! ## The harness directives -/

/-- R100: the four directives. COUNT n is n timer counts, each an enabled step, with no service between them; SERVICE is one service,
legal only with an expiry pending; TICKS n is n times the fewest counts that bring an expiry, none if one is pending, then at once
a service; READY b is the turn that sets DEVICE_READY. -/
def Obligations.HarnessDirectives : Prop :=
  (∀ (s : State) (n : Nat) (turns : List Turn), directiveTurns (.count n) s = some turns ↔ turns = List.replicate n .count ∧
    ∀ j, j < n → ∃ m, runTurns (List.replicate j .count) s = .next m ∧ countEnabled m.params m.blk = true) ∧
    (∀ s : State, directiveTurns .service s = if s.blk.tickPending = true then some [.service] else none) ∧
    (∀ s : State, directiveTurns (.ticks 0) s = some []) ∧
    (∀ (s : State) (n : Nat) (turns : List Turn), directiveTurns (.ticks (n + 1)) s = some turns →
      ∃ (k : Nat) (t : State) (more : List Turn), turns = List.replicate k .count ++ .service :: more ∧
        (∀ j, j ≤ k → ∃ m, runTurns (List.replicate j .count) s = .next m ∧ (m.blk.tickPending = true ↔ j = k)) ∧
        runTurns (List.replicate k .count ++ [.service]) s = .next t ∧ directiveTurns (.ticks n) t = some more) ∧
    ∀ (s : State) (level : Bool), directiveTurns (.ready level) s = some [.ready level] ∧
      runTurns [.ready level] s = .next { s with deviceReady := level, response := none }

/-- TICKS n in any state that meets the invariant: a first tick can be given unless none is pending and the block is not RUNNING; and
a RUNNING block not yet late, whose device does not refuse, takes n services, however late the first one is: the alarm goes on by
n periods and the last service falls on its expiry (30_encoding.md section 6, 41_tick.md section 3). -/
def Obligations.TicksDirectiveTakesEveryExpiry : Prop :=
  (∀ s : State, s.Inv → (directiveTurns (.ticks 1) s = none ↔ s.blk.tickPending = false ∧ s.blk.state ≠ .running)) ∧
    ∀ (s : State) (n : Nat), s.Inv → s.blk.state = .running → s.params.rearmMayFail = false → s.blk.elapsed < s.blk.period →
      ∃ (turns : List Turn) (t : State), directiveTurns (.ticks n) s = some turns ∧ turns.count .service = n ∧
        runTurns turns s = .next t ∧ t.agenda = s.agenda ∧ t.blk.state = .running ∧
        t.blk.deadline = (s.blk.deadline + n * s.blk.period) % 2 ^ s.params.tw ∧
        t.blk.sigBase = min (s.blk.sigBase + n) s.params.sigLimit ∧ (1 ≤ n → t.blk.tickPending = false) ∧
        (1 ≤ n → s.blk.tickPending = false ∨ 2 ≤ n →
          t.blk.now = (s.blk.deadline + (n - 1) * s.blk.period) % 2 ^ s.params.tw)
end

