-- ==== Sys2Proof/Laws/Decode.lean ====
section
/-! SUPPORT. Words, bytes and fields: taking apart what was put together. -/

namespace Sys2Proof

/-! ## Bytes and words -/

theorem wordOfBytes_extract (w : Word) :
    wordOfBytes (w.extractLsb' 0 8) (w.extractLsb' 8 8) (w.extractLsb' 16 8) (w.extractLsb' 24 8) = w := by
  unfold wordOfBytes
  apply BitVec.eq_of_toNat_eq
  simp only [BitVec.toNat_append, BitVec.extractLsb'_toNat]
  have h := w.isLt
  rw [← Nat.shiftLeft_add_eq_or_of_lt (by omega), ← Nat.shiftLeft_add_eq_or_of_lt (by omega),
    ← Nat.shiftLeft_add_eq_or_of_lt (by omega)]
  simp only [Nat.shiftLeft_eq, Nat.shiftRight_eq_div_pow]
  omega

theorem wordBytes_wordOfBytes (b0 b1 b2 b3 : Byte) : wordBytes (wordOfBytes b0 b1 b2 b3) = [b0, b1, b2, b3] := by
  have h0 := b0.isLt
  have h1 := b1.isLt
  have h2 := b2.isLt
  have h3 := b3.isLt
  have hw : (wordOfBytes b0 b1 b2 b3).toNat = b3.toNat * 2 ^ 24 + b2.toNat * 2 ^ 16 + b1.toNat * 2 ^ 8 + b0.toNat := by
    unfold wordOfBytes
    simp only [BitVec.toNat_append]
    rw [← Nat.shiftLeft_add_eq_or_of_lt (by omega), ← Nat.shiftLeft_add_eq_or_of_lt (by omega),
      ← Nat.shiftLeft_add_eq_or_of_lt (by omega)]
    simp only [Nat.shiftLeft_eq]
    omega
  unfold wordBytes
  congr 1
  · apply BitVec.eq_of_toNat_eq; simp [BitVec.extractLsb'_toNat, hw, Nat.shiftRight_eq_div_pow]; omega
  congr 1
  · apply BitVec.eq_of_toNat_eq; simp [BitVec.extractLsb'_toNat, hw, Nat.shiftRight_eq_div_pow]; omega
  congr 1
  · apply BitVec.eq_of_toNat_eq; simp [BitVec.extractLsb'_toNat, hw, Nat.shiftRight_eq_div_pow]; omega
  congr 1
  · apply BitVec.eq_of_toNat_eq; simp [BitVec.extractLsb'_toNat, hw, Nat.shiftRight_eq_div_pow]; omega

@[simp] theorem wordBytes_length (w : Word) : (wordBytes w).length = 4 := rfl

@[simp] theorem firstWord_wordBytes (w : Word) : firstWord (wordBytes w) = w := wordOfBytes_extract w

/-- A word followed by the operands it declares is framed. -/
theorem splitCommand_wordBytes (w : Word) (operand : List Byte) (h : operand.length = operandBytes w) :
    splitCommand (wordBytes w ++ operand) = some (w, operand) := by
  simp [wordBytes, splitCommand, wordOfBytes_extract, h]

/-- Only such a sequence is. -/
theorem splitCommand_some {bytes operand : List Byte} {w : Word} (h : splitCommand bytes = some (w, operand)) :
    bytes = wordBytes w ++ operand ∧ operand.length = operandBytes w := by
  unfold splitCommand at h
  split at h
  · rename_i b0 b1 b2 b3 rest
    split at h
    · simp only [Option.some.injEq, Prod.mk.injEq] at h
      obtain ⟨rfl, rfl⟩ := h
      exact ⟨by rw [wordBytes_wordOfBytes]; rfl, ‹_›⟩
    · simp at h
  · simp at h

/-! ## Fields -/

theorem commandWord_toNat (op : BitVec 4) (c s : BitVec 2) (l : BitVec 16) :
    (commandWord op c s l).toNat = op.toNat * 2 ^ 28 + c.toNat * 2 ^ 26 + s.toNat * 2 ^ 24 + l.toNat := by
  have h0 := op.isLt
  have h1 := c.isLt
  have h2 := s.isLt
  have h3 := l.isLt
  unfold commandWord
  simp only [BitVec.toNat_append]
  rw [← Nat.shiftLeft_add_eq_or_of_lt (by omega), ← Nat.shiftLeft_add_eq_or_of_lt (by omega),
    ← Nat.shiftLeft_add_eq_or_of_lt (by simp; try omega), ← Nat.shiftLeft_add_eq_or_of_lt (by simp; try omega)]
  simp only [Nat.shiftLeft_eq, BitVec.toNat_ofNat]
  omega

@[simp] theorem opField_commandWord (op : BitVec 4) (c s : BitVec 2) (l : BitVec 16) :
    opField (commandWord op c s l) = op := by
  have h0 := op.isLt
  have h1 := c.isLt
  have h2 := s.isLt
  have h3 := l.isLt
  apply BitVec.eq_of_toNat_eq
  simp [opField, BitVec.extractLsb'_toNat, commandWord_toNat, Nat.shiftRight_eq_div_pow]; omega

@[simp] theorem ctxField_commandWord (op : BitVec 4) (c s : BitVec 2) (l : BitVec 16) :
    ctxField (commandWord op c s l) = c := by
  have h0 := op.isLt
  have h1 := c.isLt
  have h2 := s.isLt
  have h3 := l.isLt
  apply BitVec.eq_of_toNat_eq
  simp [ctxField, BitVec.extractLsb'_toNat, commandWord_toNat, Nat.shiftRight_eq_div_pow]; omega

@[simp] theorem selField_commandWord (op : BitVec 4) (c s : BitVec 2) (l : BitVec 16) :
    selField (commandWord op c s l) = s := by
  have h0 := op.isLt
  have h1 := c.isLt
  have h2 := s.isLt
  have h3 := l.isLt
  apply BitVec.eq_of_toNat_eq
  simp [selField, BitVec.extractLsb'_toNat, commandWord_toNat, Nat.shiftRight_eq_div_pow]; omega

@[simp] theorem rsvField_commandWord (op : BitVec 4) (c s : BitVec 2) (l : BitVec 16) :
    rsvField (commandWord op c s l) = 0 := by
  have h0 := op.isLt
  have h1 := c.isLt
  have h2 := s.isLt
  have h3 := l.isLt
  apply BitVec.eq_of_toNat_eq
  simp [rsvField, BitVec.extractLsb'_toNat, commandWord_toNat, Nat.shiftRight_eq_div_pow]; omega

@[simp] theorem lenField_commandWord (op : BitVec 4) (c s : BitVec 2) (l : BitVec 16) :
    lenField (commandWord op c s l) = l := by
  have h0 := op.isLt
  have h1 := c.isLt
  have h2 := s.isLt
  have h3 := l.isLt
  apply BitVec.eq_of_toNat_eq
  simp [lenField, BitVec.extractLsb'_toNat, commandWord_toNat]; omega

/-- A word is its fields, when RSV is 0. -/
theorem commandWord_fields (w : Word) (h : rsvField w = 0) :
    commandWord (opField w) (ctxField w) (selField w) (lenField w) = w := by
  have hw := w.isLt
  have h' : w.toNat / 2 ^ 16 % 2 ^ 8 = 0 := by
    have := congrArg BitVec.toNat h
    simpa [rsvField, BitVec.extractLsb'_toNat, Nat.shiftRight_eq_div_pow] using this
  apply BitVec.eq_of_toNat_eq
  simp only [commandWord_toNat, opField, ctxField, selField, lenField, BitVec.extractLsb'_toNat, Nat.shiftRight_eq_div_pow]
  omega

@[simp] theorem ctxOfBits_ctxBits (c : Ctx) : ctxOfBits (ctxBits c) = some c := by cases c <;> rfl

@[simp] theorem signalOfBits_signalBits (k : Signal) : signalOfBits (signalBits k) = some k := by cases k <;> rfl

theorem ctxOfBits_some {b : BitVec 2} {c : Ctx} (h : ctxOfBits b = some c) : b = ctxBits c := by
  revert h; revert b c; decide

theorem signalOfBits_some {b : BitVec 2} {k : Signal} (h : signalOfBits b = some k) : b = signalBits k := by
  revert h; revert b k; decide

end Sys2Proof
end

