-- ==== Sys2Proof/Laws/State.lean ====
section
/-! SUPPORT. What each named update does to each field, one lemma a field, so that no proof unfolds a record update. -/

namespace Sys2Proof.Machine

section Updates

variable (s : State) (b : Block) (p : Params) (status : Status) (value : Word) (data : Option (List Byte)) (cause : ErrCode)
  (n draw v : Nat) (k : Signal)


/-! ### respond -/

@[simp] theorem respond_params : (respond status value data s).params = s.params := rfl
@[simp] theorem respond_blk : (respond status value data s).blk = s.blk := rfl
@[simp] theorem respond_deviceReady : (respond status value data s).deviceReady = s.deviceReady := rfl
@[simp] theorem respond_callers : (respond status value data s).callers = s.callers := rfl
@[simp] theorem respond_agenda : (respond status value data s).agenda = s.agenda := rfl
@[simp] theorem respond_draws : (respond status value data s).draws = s.draws := rfl
@[simp] theorem respond_response : (respond status value data s).response = some ⟨status, value, data⟩ := rfl
@[simp] theorem respond_answers : (respond status value data s).answers = s.answers := rfl

/-! ### raiseError -/

@[simp] theorem raiseError_params : (raiseError status s).params = s.params := rfl
@[simp] theorem raiseError_blk : (raiseError status s).blk = s.blk := rfl
@[simp] theorem raiseError_deviceReady : (raiseError status s).deviceReady = s.deviceReady := rfl
@[simp] theorem raiseError_callers : (raiseError status s).callers = s.callers := rfl
@[simp] theorem raiseError_agenda : (raiseError status s).agenda = s.agenda := rfl
@[simp] theorem raiseError_draws : (raiseError status s).draws = s.draws := rfl
@[simp] theorem raiseError_response : (raiseError status s).response = some ⟨status, 0, none⟩ := rfl
@[simp] theorem raiseError_answers : (raiseError status s).answers = s.answers := rfl

/-! ### hold -/

@[simp] theorem hold_params : (hold s).params = s.params := rfl
@[simp] theorem hold_blk : (hold s).blk = s.blk := rfl
@[simp] theorem hold_deviceReady : (hold s).deviceReady = s.deviceReady := rfl
@[simp] theorem hold_callers : (hold s).callers = s.callers := rfl
@[simp] theorem hold_agenda : (hold s).agenda = s.agenda := rfl
@[simp] theorem hold_draws : (hold s).draws = s.draws := rfl
@[simp] theorem hold_response : (hold s).response = none := rfl
@[simp] theorem hold_answers : (hold s).answers = s.answers := rfl

/-! ### failConfig -/

@[simp] theorem failConfig_state : (failConfig cause b).state = .cfgfail := rfl
@[simp] theorem failConfig_err : (failConfig cause b).err = cause := rfl
@[simp] theorem failConfig_period : (failConfig cause b).period = b.period := rfl
@[simp] theorem failConfig_now : (failConfig cause b).now = b.now := rfl
@[simp] theorem failConfig_deadline : (failConfig cause b).deadline = b.deadline := rfl
@[simp] theorem failConfig_tickPending : (failConfig cause b).tickPending = b.tickPending := rfl
@[simp] theorem failConfig_elapsed : (failConfig cause b).elapsed = b.elapsed := rfl
@[simp] theorem failConfig_cnt10 : (failConfig cause b).cnt10 = b.cnt10 := rfl
@[simp] theorem failConfig_cnt100 : (failConfig cause b).cnt100 = b.cnt100 := rfl
@[simp] theorem failConfig_sigBase : (failConfig cause b).sigBase = b.sigBase := rfl
@[simp] theorem failConfig_sigD10 : (failConfig cause b).sigD10 = b.sigD10 := rfl
@[simp] theorem failConfig_sigD100 : (failConfig cause b).sigD100 = b.sigD100 := rfl
@[simp] theorem failConfig_queue : (failConfig cause b).queue = b.queue := rfl
@[simp] theorem failConfig_drop : (failConfig cause b).drop = b.drop := rfl

/-! ### haltGenerator -/

@[simp] theorem haltGenerator_state : (haltGenerator cause b).state = .halted := rfl
@[simp] theorem haltGenerator_err : (haltGenerator cause b).err = cause := rfl
@[simp] theorem haltGenerator_period : (haltGenerator cause b).period = b.period := rfl
@[simp] theorem haltGenerator_now : (haltGenerator cause b).now = b.now := rfl
@[simp] theorem haltGenerator_deadline : (haltGenerator cause b).deadline = b.deadline := rfl
@[simp] theorem haltGenerator_tickPending : (haltGenerator cause b).tickPending = b.tickPending := rfl
@[simp] theorem haltGenerator_elapsed : (haltGenerator cause b).elapsed = b.elapsed := rfl
@[simp] theorem haltGenerator_cnt10 : (haltGenerator cause b).cnt10 = b.cnt10 := rfl
@[simp] theorem haltGenerator_cnt100 : (haltGenerator cause b).cnt100 = b.cnt100 := rfl
@[simp] theorem haltGenerator_sigBase : (haltGenerator cause b).sigBase = b.sigBase := rfl
@[simp] theorem haltGenerator_sigD10 : (haltGenerator cause b).sigD10 = b.sigD10 := rfl
@[simp] theorem haltGenerator_sigD100 : (haltGenerator cause b).sigD100 = b.sigD100 := rfl
@[simp] theorem haltGenerator_queue : (haltGenerator cause b).queue = b.queue := rfl
@[simp] theorem haltGenerator_drop : (haltGenerator cause b).drop = b.drop := rfl

/-! ### startTimer -/

@[simp] theorem startTimer_state : (startTimer p n b).state = .running := rfl
@[simp] theorem startTimer_err : (startTimer p n b).err = b.err := rfl
@[simp] theorem startTimer_period : (startTimer p n b).period = n := rfl
@[simp] theorem startTimer_now : (startTimer p n b).now = b.now := rfl
@[simp] theorem startTimer_deadline : (startTimer p n b).deadline = wrapTimer p (b.now + n) := rfl
@[simp] theorem startTimer_tickPending : (startTimer p n b).tickPending = false := rfl
@[simp] theorem startTimer_elapsed : (startTimer p n b).elapsed = 0 := rfl
@[simp] theorem startTimer_cnt10 : (startTimer p n b).cnt10 = b.cnt10 := rfl
@[simp] theorem startTimer_cnt100 : (startTimer p n b).cnt100 = b.cnt100 := rfl
@[simp] theorem startTimer_sigBase : (startTimer p n b).sigBase = b.sigBase := rfl
@[simp] theorem startTimer_sigD10 : (startTimer p n b).sigD10 = b.sigD10 := rfl
@[simp] theorem startTimer_sigD100 : (startTimer p n b).sigD100 = b.sigD100 := rfl
@[simp] theorem startTimer_queue : (startTimer p n b).queue = b.queue := rfl
@[simp] theorem startTimer_drop : (startTimer p n b).drop = b.drop := rfl

/-! ### takeInterrupt -/

@[simp] theorem takeInterrupt_state : (takeInterrupt b).state = b.state := rfl
@[simp] theorem takeInterrupt_err : (takeInterrupt b).err = b.err := rfl
@[simp] theorem takeInterrupt_period : (takeInterrupt b).period = b.period := rfl
@[simp] theorem takeInterrupt_now : (takeInterrupt b).now = b.now := rfl
@[simp] theorem takeInterrupt_deadline : (takeInterrupt b).deadline = b.deadline := rfl
@[simp] theorem takeInterrupt_tickPending : (takeInterrupt b).tickPending = false := rfl
@[simp] theorem takeInterrupt_elapsed : (takeInterrupt b).elapsed = b.elapsed := rfl
@[simp] theorem takeInterrupt_cnt10 : (takeInterrupt b).cnt10 = b.cnt10 := rfl
@[simp] theorem takeInterrupt_cnt100 : (takeInterrupt b).cnt100 = b.cnt100 := rfl
@[simp] theorem takeInterrupt_sigBase : (takeInterrupt b).sigBase = b.sigBase := rfl
@[simp] theorem takeInterrupt_sigD10 : (takeInterrupt b).sigD10 = b.sigD10 := rfl
@[simp] theorem takeInterrupt_sigD100 : (takeInterrupt b).sigD100 = b.sigD100 := rfl
@[simp] theorem takeInterrupt_queue : (takeInterrupt b).queue = b.queue := rfl
@[simp] theorem takeInterrupt_drop : (takeInterrupt b).drop = b.drop := rfl

/-! ### setSig and release -/

@[simp] theorem setSig_state : (b.setSig k v).state = b.state := by cases k <;> rfl
@[simp] theorem setSig_err : (b.setSig k v).err = b.err := by cases k <;> rfl
@[simp] theorem setSig_period : (b.setSig k v).period = b.period := by cases k <;> rfl
@[simp] theorem setSig_now : (b.setSig k v).now = b.now := by cases k <;> rfl
@[simp] theorem setSig_deadline : (b.setSig k v).deadline = b.deadline := by cases k <;> rfl
@[simp] theorem setSig_tickPending : (b.setSig k v).tickPending = b.tickPending := by cases k <;> rfl
@[simp] theorem setSig_elapsed : (b.setSig k v).elapsed = b.elapsed := by cases k <;> rfl
@[simp] theorem setSig_cnt10 : (b.setSig k v).cnt10 = b.cnt10 := by cases k <;> rfl
@[simp] theorem setSig_cnt100 : (b.setSig k v).cnt100 = b.cnt100 := by cases k <;> rfl
@[simp] theorem setSig_queue : (b.setSig k v).queue = b.queue := by cases k <;> rfl
@[simp] theorem setSig_drop : (b.setSig k v).drop = b.drop := by cases k <;> rfl
@[simp] theorem release_state : (release p k b).state = b.state := by cases k <;> rfl
@[simp] theorem release_err : (release p k b).err = b.err := by cases k <;> rfl
@[simp] theorem release_period : (release p k b).period = b.period := by cases k <;> rfl
@[simp] theorem release_now : (release p k b).now = b.now := by cases k <;> rfl
@[simp] theorem release_deadline : (release p k b).deadline = b.deadline := by cases k <;> rfl
@[simp] theorem release_tickPending : (release p k b).tickPending = b.tickPending := by cases k <;> rfl
@[simp] theorem release_elapsed : (release p k b).elapsed = b.elapsed := by cases k <;> rfl
@[simp] theorem release_cnt10 : (release p k b).cnt10 = b.cnt10 := by cases k <;> rfl
@[simp] theorem release_cnt100 : (release p k b).cnt100 = b.cnt100 := by cases k <;> rfl
@[simp] theorem release_queue : (release p k b).queue = b.queue := by cases k <;> rfl
@[simp] theorem release_drop : (release p k b).drop = b.drop := by cases k <;> rfl

/-! ### Block.reset -/

@[simp] theorem blockReset_state : (Block.reset draw).state = .uninit := rfl
@[simp] theorem blockReset_err : (Block.reset draw).err = .none := rfl
@[simp] theorem blockReset_period : (Block.reset draw).period = 0 := rfl
@[simp] theorem blockReset_now : (Block.reset draw).now = draw := rfl
@[simp] theorem blockReset_deadline : (Block.reset draw).deadline = 0 := rfl
@[simp] theorem blockReset_tickPending : (Block.reset draw).tickPending = false := rfl
@[simp] theorem blockReset_elapsed : (Block.reset draw).elapsed = 0 := rfl
@[simp] theorem blockReset_cnt10 : (Block.reset draw).cnt10 = 0 := rfl
@[simp] theorem blockReset_cnt100 : (Block.reset draw).cnt100 = 0 := rfl
@[simp] theorem blockReset_sigBase : (Block.reset draw).sigBase = 0 := rfl
@[simp] theorem blockReset_sigD10 : (Block.reset draw).sigD10 = 0 := rfl
@[simp] theorem blockReset_sigD100 : (Block.reset draw).sigD100 = 0 := rfl
@[simp] theorem blockReset_queue : (Block.reset draw).queue = [] := rfl
@[simp] theorem blockReset_drop : (Block.reset draw).drop = 0 := rfl

/-! ### resetMachine -/

@[simp] theorem resetMachine_params : (resetMachine draw s).params = s.params := rfl
@[simp] theorem resetMachine_blk : (resetMachine draw s).blk = Block.reset (wrapTimer s.params draw) := rfl
@[simp] theorem resetMachine_deviceReady : (resetMachine draw s).deviceReady = s.deviceReady := rfl
@[simp] theorem resetMachine_callers : (resetMachine draw s).callers = [] := rfl
@[simp] theorem resetMachine_agenda : (resetMachine draw s).agenda = s.agenda := rfl
@[simp] theorem resetMachine_draws : (resetMachine draw s).draws = s.draws := rfl
@[simp] theorem resetMachine_response : (resetMachine draw s).response = none := rfl
@[simp] theorem resetMachine_answers : (resetMachine draw s).answers = s.answers := rfl

/-! ### the selected signal -/

theorem sig_base : b.sig .base = b.sigBase := rfl
theorem sig_d10 : b.sig .d10 = b.sigD10 := rfl
theorem sig_d100 : b.sig .d100 = b.sigD100 := rfl

end Updates

/-! ### countTurn, beginTurn, deliver: they leave alone what they do not name -/

@[simp] theorem countTurn_params (s : State) : (countTurn s).params = s.params := by unfold countTurn; split <;> rfl
@[simp] theorem countTurn_deviceReady (s : State) :
    (countTurn s).deviceReady = s.deviceReady := by unfold countTurn; split <;> rfl
@[simp] theorem countTurn_callers (s : State) : (countTurn s).callers = s.callers := by unfold countTurn; split <;> rfl
@[simp] theorem countTurn_agenda (s : State) : (countTurn s).agenda = s.agenda := by unfold countTurn; split <;> rfl
@[simp] theorem countTurn_draws (s : State) : (countTurn s).draws = s.draws := by unfold countTurn; split <;> rfl
@[simp] theorem countTurn_response (s : State) : (countTurn s).response = s.response := by unfold countTurn; split <;> rfl
@[simp] theorem countTurn_answers (s : State) : (countTurn s).answers = s.answers := by unfold countTurn; split <;> rfl
@[simp] theorem beginTurn_params (s : State) : (beginTurn s).params = s.params := by unfold beginTurn; split <;> rfl
@[simp] theorem beginTurn_blk (s : State) : (beginTurn s).blk = s.blk := by unfold beginTurn; split <;> rfl
@[simp] theorem beginTurn_deviceReady (s : State) :
    (beginTurn s).deviceReady = s.deviceReady := by unfold beginTurn; split <;> rfl
@[simp] theorem beginTurn_callers (s : State) : (beginTurn s).callers = s.callers := by unfold beginTurn; split <;> rfl
@[simp] theorem beginTurn_answers (s : State) : (beginTurn s).answers = s.answers := by unfold beginTurn; split <;> rfl
@[simp] theorem beginTurn_response (s : State) : (beginTurn s).response = none := by unfold beginTurn; split <;> rfl
@[simp] theorem deliver_params (n : Nat) (s : State) : (deliver n s).params = s.params := by unfold deliver; split <;> rfl
@[simp] theorem deliver_blk (n : Nat) (s : State) : (deliver n s).blk = s.blk := by unfold deliver; split <;> rfl
@[simp] theorem deliver_deviceReady (n : Nat) (s : State) :
    (deliver n s).deviceReady = s.deviceReady := by unfold deliver; split <;> rfl
@[simp] theorem deliver_agenda (n : Nat) (s : State) : (deliver n s).agenda = s.agenda := by unfold deliver; split <;> rfl
@[simp] theorem deliver_draws (n : Nat) (s : State) : (deliver n s).draws = s.draws := by unfold deliver; split <;> rfl
@[simp] theorem deliver_response (n : Nat) (s : State) :
    (deliver n s).response = s.response := by unfold deliver; split <;> rfl

end Sys2Proof.Machine
end

