-- ==== Sys2Proof/Laws/Ops.lean ====
section
/-! SUPPORT. One lemma per shared operation that says all it can do; the provers cite these instead of unfolding. -/

namespace Sys2Proof.Machine

/-! ## Numbers of the timer's width -/

theorem timerTop_succ (p : Params) : timerTop p + 1 = 2 ^ p.tw := by
  have := Nat.one_le_two_pow (n := p.tw)
  unfold timerTop; omega

theorem wrapTimer_le (p : Params) (n : Nat) : wrapTimer p n ≤ timerTop p := by
  have h := Nat.mod_lt n (Nat.two_pow_pos p.tw)
  have := timerTop_succ p
  unfold wrapTimer; omega

theorem wrapTimer_of_le {p : Params} {n : Nat} (h : n ≤ timerTop p) : wrapTimer p n = n :=
  Nat.mod_eq_of_lt (by have := timerTop_succ p; omega)

theorem wrapTimer_wrapTimer_add (p : Params) (a b : Nat) : wrapTimer p (wrapTimer p a + b) = wrapTimer p (a + b) := by
  simp [wrapTimer]

/-! ## Signals -/

theorem satInc_eq_min {c limit : Nat} (h : c ≤ limit) : satInc c limit = min (c + 1) limit := by
  unfold satInc; split <;> omega

theorem satInc_le {c limit : Nat} (h : c ≤ limit) : satInc c limit ≤ limit := by
  unfold satInc; split <;> omega

theorem le_satInc (c limit : Nat) : c ≤ satInc c limit := by
  unfold satInc; split <;> omega

theorem setSig_sig (b : Block) (k j : Signal) (v : Nat) : (b.setSig k v).sig j = if j = k then v else b.sig j := by
  cases k <;> cases j <;> rfl

theorem release_sig (p : Params) (b : Block) (k j : Signal) :
    (release p k b).sig j = if j = k then satInc (b.sig k) p.sigLimit else b.sig j := setSig_sig b k j _

/-! ## Dividers -/

theorem divideTen_cases (p : Params) (b : Block) :
    (b.cnt10 + 1 = p.divA ∧ divideTen p b = release p .d10 { b with cnt10 := 0 }) ∨
      (b.cnt10 + 1 ≠ p.divA ∧ divideTen p b = { b with cnt10 := b.cnt10 + 1 }) := by
  unfold divideTen; split <;> simp_all

theorem divideHundred_cases (p : Params) (b : Block) :
    (b.cnt100 + 1 = p.divB ∧ divideHundred p b = release p .d100 { b with cnt100 := 0 }) ∨
      (b.cnt100 + 1 ≠ p.divB ∧ divideHundred p b = { b with cnt100 := b.cnt100 + 1 }) := by
  unfold divideHundred; split <;> simp_all

/-! ## The re-arm -/

theorem rearm_cases (p : Params) (d : Bool) (b : Block) :
    (b.period ≤ b.elapsed ∧ rearm p d b = haltGenerator .rearmLate { b with elapsed := 0 }) ∨
      (b.elapsed < b.period ∧ d = true ∧ rearm p d b = haltGenerator .rearmDevice { b with elapsed := 0 }) ∨
      (b.elapsed < b.period ∧ d = false ∧
        rearm p d b = { b with elapsed := 0, deadline := wrapTimer p (b.deadline + b.period) }) := by
  unfold rearm; split
  · exact .inl ⟨‹_›, rfl⟩
  · split <;> simp_all

/-! ## The whole tick service, field by field -/

/-- The block just before the re-arm: pending cleared, releases and dividers done (41_tick.md R134, parts 1 to 3). -/
def beforeRearm (p : Params) (b : Block) : Block :=
  divideHundred p (divideTen p (release p .base (takeInterrupt b)))

theorem serviceBlock_eq (p : Params) (d : Bool) (b : Block) : serviceBlock p d b = rearm p d (beforeRearm p b) := rfl

/-- The releases and dividers write only the pending bit, the two dividers and the signals. -/
theorem beforeRearm_frame (p : Params) (b : Block) :
    (beforeRearm p b).state = b.state ∧ (beforeRearm p b).err = b.err ∧ (beforeRearm p b).period = b.period ∧
      (beforeRearm p b).now = b.now ∧ (beforeRearm p b).deadline = b.deadline ∧ (beforeRearm p b).tickPending = false ∧
      (beforeRearm p b).elapsed = b.elapsed ∧ (beforeRearm p b).queue = b.queue ∧ (beforeRearm p b).drop = b.drop := by
  unfold beforeRearm
  rcases divideHundred_cases p (divideTen p (release p .base (takeInterrupt b))) with ⟨_, h⟩ | ⟨_, h⟩ <;>
    rcases divideTen_cases p (release p .base (takeInterrupt b)) with ⟨_, h'⟩ | ⟨_, h'⟩ <;> rw [h, h'] <;> simp

theorem divideTen_cnt10 (p : Params) (b : Block) :
    (divideTen p b).cnt10 = if b.cnt10 + 1 = p.divA then 0 else b.cnt10 + 1 := by
  unfold divideTen; split <;> simp

theorem divideTen_cnt100 (p : Params) (b : Block) : (divideTen p b).cnt100 = b.cnt100 := by
  unfold divideTen; split <;> simp

theorem divideTen_sig (p : Params) (b : Block) (k : Signal) :
    (divideTen p b).sig k = if k = .d10 ∧ b.cnt10 + 1 = p.divA then satInc (b.sig .d10) p.sigLimit else b.sig k := by
  unfold divideTen; split <;> cases k <;> simp_all [release, Block.setSig, Block.sig]

theorem divideHundred_cnt100 (p : Params) (b : Block) :
    (divideHundred p b).cnt100 = if b.cnt100 + 1 = p.divB then 0 else b.cnt100 + 1 := by
  unfold divideHundred; split <;> simp

theorem divideHundred_cnt10 (p : Params) (b : Block) : (divideHundred p b).cnt10 = b.cnt10 := by
  unfold divideHundred; split <;> simp

theorem divideHundred_sig (p : Params) (b : Block) (k : Signal) :
    (divideHundred p b).sig k =
      if k = .d100 ∧ b.cnt100 + 1 = p.divB then satInc (b.sig .d100) p.sigLimit else b.sig k := by
  unfold divideHundred; split <;> cases k <;> simp_all [release, Block.setSig, Block.sig]

theorem beforeRearm_cnt10 (p : Params) (b : Block) :
    (beforeRearm p b).cnt10 = if b.cnt10 + 1 = p.divA then 0 else b.cnt10 + 1 := by
  simp [beforeRearm, divideHundred_cnt10, divideTen_cnt10]

theorem beforeRearm_cnt100 (p : Params) (b : Block) :
    (beforeRearm p b).cnt100 = if b.cnt100 + 1 = p.divB then 0 else b.cnt100 + 1 := by
  simp [beforeRearm, divideHundred_cnt100, divideTen_cnt100]

/-- Which signals one service releases (41_tick.md R135, R136, R137). -/
theorem beforeRearm_sig (p : Params) (b : Block) (k : Signal) :
    (beforeRearm p b).sig k =
      if k = .base ∨ (k = .d10 ∧ b.cnt10 + 1 = p.divA) ∨ (k = .d100 ∧ b.cnt100 + 1 = p.divB) then
        satInc (b.sig k) p.sigLimit
      else b.sig k := by
  unfold beforeRearm
  rw [divideHundred_sig, divideTen_cnt100]
  cases k <;> simp [divideTen_sig, release_sig] <;> rfl

/-- The re-arm leaves the releases and dividers, the queue and the period alone (41_tick.md R140: the releases stand). -/
theorem rearm_frame (p : Params) (d : Bool) (b : Block) :
    (rearm p d b).period = b.period ∧ (rearm p d b).now = b.now ∧ (rearm p d b).tickPending = b.tickPending ∧
      (rearm p d b).elapsed = 0 ∧ (rearm p d b).cnt10 = b.cnt10 ∧ (rearm p d b).cnt100 = b.cnt100 ∧
      (∀ k, (rearm p d b).sig k = b.sig k) ∧ (rearm p d b).queue = b.queue ∧ (rearm p d b).drop = b.drop := by
  rcases rearm_cases p d b with ⟨_, h⟩ | ⟨_, _, h⟩ | ⟨_, _, h⟩ <;> rw [h] <;> simp <;> intro k <;> cases k <;> rfl

/-! ## The timer -/

/-- All a TIMER_COUNT step can do (41_tick.md R130). -/
theorem timerCount_cases (p : Params) (b : Block) :
    (b.tickPending = true ∧ timerCount p b =
        { b with now := wrapTimer p (b.now + 1), elapsed := min (b.elapsed + 1) (timerTop p) }) ∨
      (b.tickPending = false ∧ b.state = .running ∧ wrapTimer p (b.now + 1) = b.deadline ∧ timerCount p b =
        { b with now := wrapTimer p (b.now + 1), tickPending := true, elapsed := 0 }) ∨
      (b.tickPending = false ∧ ¬(b.state = .running ∧ wrapTimer p (b.now + 1) = b.deadline) ∧ timerCount p b =
        { b with now := wrapTimer p (b.now + 1) }) := by
  unfold timerCount
  split
  · exact .inl ⟨‹_›, rfl⟩
  · split <;> simp_all

/-! ## The queue -/

@[simp] theorem padding_length (d n : Nat) : (padding d n).length = n := by
  induction n generalizing d with
  | zero => rfl
  | succ n ih => simp [padding, ih]

/-- A record is exactly REC bytes long (00_scope.md R14), whatever the payload (42_queue.md R162, R163). -/
theorem recordOf_length (p : Params) {len : Nat} {payload : List Byte} (h : payload.length = len) (d : Nat) :
    (recordOf p len payload d).length = p.recBytes := by
  simp [recordOf, storedLen]; omega

/-- Byte `i` of the record is byte `i` of the payload, for the bytes ENQ stores (20_memory.md R61). -/
theorem recordOf_payload (p : Params) {len : Nat} {payload : List Byte} (h : payload.length = len) (d i : Nat)
    (hi : i < min len p.recBytes) : (recordOf p len payload d)[i]? = payload[i]? := by
  unfold recordOf storedLen
  rw [List.getElem?_append_left (by simp; omega), List.getElem?_take]
  simp; omega

/-- All ENQ's body can do (42_queue.md R160). -/
theorem enqueue_cases (len : Nat) (payload : List Byte) (s : State) :
    (s.blk.queue.length = s.params.qcap ∧ enqueue len payload s =
        respond .full 0 none { s with blk := { s.blk with drop := s.blk.drop + 1 } }) ∨
      (s.blk.queue.length ≠ s.params.qcap ∧ enqueue len payload s =
        respond .ok 1 none
          { s with
            blk := { s.blk with queue := s.blk.queue ++ [recordOf s.params len payload s.draws] }
            draws := s.draws + (s.params.recBytes - storedLen s.params len) }) := by
  unfold enqueue; split <;> simp_all

/-- All DEQ's body can do (42_queue.md R165). -/
theorem dequeue_cases (s : State) :
    (s.blk.queue = [] ∧ dequeue s = hold s) ∨
      ∃ r rest, s.blk.queue = r :: rest ∧
        dequeue s = respond .ok 0 (some r) { s with blk := { s.blk with queue := rest } } := by
  unfold dequeue; split <;> simp_all

/-- All TAKE's body can do (43_signals_inspect.md R190). -/
theorem takeSignal_cases (k : Signal) (s : State) :
    (s.blk.sig k = 0 ∧ takeSignal k s = hold s) ∨
      (s.blk.sig k ≠ 0 ∧ takeSignal k s =
        respond .ok 0 none { s with blk := s.blk.setSig k (s.blk.sig k - 1) }) := by
  unfold takeSignal; split <;> simp_all

/-- All INIT's body can do (40_initialize.md R112). -/
theorem configure_cases (freq : Word) (s : State) :
    (s.blk.state ≠ .uninit ∧ configure freq s = raiseError .errState s) ∨
      (s.blk.state = .uninit ∧ s.deviceReady = false ∧ configure freq s =
        raiseError .errDeviceNotReady { s with blk := failConfig .deviceNotReady s.blk }) ∨
      (s.blk.state = .uninit ∧ s.deviceReady = true ∧ periodOf s.params freq = 0 ∧ configure freq s =
        raiseError .errRateZero { s with blk := failConfig .rateZero s.blk }) ∨
      (s.blk.state = .uninit ∧ s.deviceReady = true ∧ timerTop s.params < periodOf s.params freq ∧ configure freq s =
        raiseError .errRateOverflow { s with blk := failConfig .rateOverflow s.blk }) ∨
      (s.blk.state = .uninit ∧ s.deviceReady = true ∧ 1 ≤ periodOf s.params freq ∧
        periodOf s.params freq ≤ timerTop s.params ∧ configure freq s =
          respond .ok (BitVec.ofNat 32 (periodOf s.params freq)) none
            { s with blk := startTimer s.params (periodOf s.params freq) s.blk }) := by
  unfold configure
  split
  · exact .inl ⟨‹_›, rfl⟩
  split
  · simp_all
  split
  · simp_all
  split
  · simp_all
  · simp_all; omega

/-- The context check runs the body or answers ERR_CONTEXT (30_encoding.md R93). -/
theorem checkCtx_cases (i : Instr) (body : State → State) (s : State) :
    (allowedCtx i = true ∧ checkCtx i body s = body s) ∨
      (allowedCtx i = false ∧ checkCtx i body s = raiseError .errContext s) := by
  unfold checkCtx; split <;> simp_all

end Sys2Proof.Machine
end

