-- ==== Sys2Proof/Laws/Step.lean ====
section
/-! SUPPORT. What one step can do, said once: by the agent whose turn it is, and by the instruction it runs. -/

namespace Sys2Proof.Machine

/-! ## What exec can do, instruction by instruction -/

theorem exec_init (ctx : Ctx) (freq : Word) (s : State) :
    exec (.init ctx freq) s = .next (checkCtx (.init ctx freq) (configure freq) s) := rfl

theorem exec_tick_pending {s : State} (h : s.blk.tickPending = true) :
    exec .tick s = .next { s with
      blk := serviceBlock s.params (deviceDraw s) s.blk, draws := s.draws + deviceDraws s, response := none } := by
  simp [exec, execTick, h]

theorem exec_tick_idle {s : State} (h : s.blk.tickPending = false) : exec .tick s = .next (hold s) := by
  simp [exec, execTick, h]

theorem exec_enq {ctx : Ctx} {len : BitVec 16} {payload : List Byte} (h : payload.length = len.toNat) (s : State) :
    exec (.enq ctx len payload) s = .next (enqueue len.toNat payload s) := by
  simp [exec, execEnq, h, checkCtx, allowedCtx]

theorem exec_deq (ctx : Ctx) (s : State) : exec (.deq ctx) s = .next (checkCtx (.deq ctx) dequeue s) := rfl

theorem exec_take (ctx : Ctx) (k : Signal) (s : State) :
    exec (.take ctx k) s = .next (checkCtx (.take ctx k) (takeSignal k) s) := rfl

theorem exec_rdstat (ctx : Ctx) (s : State) : exec (.rdstat ctx) s = .next (respond .ok (statusView s.blk) none s) := rfl

theorem exec_rddrop (ctx : Ctx) (s : State) : exec (.rddrop ctx) s = .next (respond .ok (dropView s.blk) none s) := rfl

/-! ## The decoder's results -/

/-- A caller never issues TICK (30_encoding.md R97), and what it issues carries the operands its word declares. -/
theorem decode_caller_instr {bytes : List Byte} {i : Instr} (h : decode .caller bytes = .instr i) :
    i ≠ .tick ∧ wellFormed i = true := by
  unfold decode at h
  split at h
  · simp at h
  · rename_i w operand hs
    obtain ⟨-, hl⟩ := splitCommand_some hs
    simp only [decodeExternal] at h
    split at h
    · split at h
      · unfold operation at h
        split_ifs at h <;> simp_all [wellFormed]
        all_goals subst h
        all_goals simp_all [operandBytes]
      · simp at h
    · simp at h

/-- The alarm's word decodes to TICK. -/
theorem decode_alarm_tick : decode .alarm (encode .tick) = .instr .tick := by decide

/-- The service turn runs TICK. -/
theorem runTurn_service (s : State) : runTurn .service s = exec .tick s := by
  simp [runTurn, runCommand, decode_alarm_tick]

/-! ## Ports -/

theorem outstanding_withoutCaller_self (callers : List Port) (n : Nat) :
    outstanding (withoutCaller callers n) n = none := by
  induction callers with
  | nil => rfl
  | cons c rest ih =>
    by_cases hc : c.caller = n
    · simpa [withoutCaller, hc] using ih
    · simpa [withoutCaller, hc, outstanding] using ih

theorem outstanding_withoutCaller_of_ne {m n : Nat} (callers : List Port) (h : m ≠ n) :
    outstanding (withoutCaller callers n) m = outstanding callers m := by
  induction callers with
  | nil => rfl
  | cons c rest ih =>
    by_cases hc : c.caller = n
    · have hm : c.caller ≠ m := fun e => h (e.symm.trans hc)
      simpa [withoutCaller, hc, outstanding, h.symm] using ih
    · simp only [withoutCaller, ne_eq, hc, not_false_eq_true, decide_true, List.filter_cons_of_pos, outstanding]
      split
      · rfl
      · simpa [withoutCaller] using ih

theorem outstanding_append (callers : List Port) (c : Port) (m : Nat) :
    outstanding (callers ++ [c]) m =
      (outstanding callers m).or (if c.caller = m then some c.cmd else none) := by
  induction callers with
  | nil => simp [outstanding]
  | cons d rest ih => simp only [List.cons_append, outstanding]; split <;> simp [ih]

theorem outstanding_eq_none {callers : List Port} {n : Nat} :
    outstanding callers n = none ↔ n ∉ callers.map Port.caller := by
  induction callers with
  | nil => simp [outstanding]
  | cons c rest ih =>
    simp only [outstanding, List.map_cons, List.mem_cons, not_or]
    split <;> rename_i hc
    · simp [hc]
    · simp [ih, Ne.symm hc, eq_comm]

theorem outstanding_mem {callers : List Port} {n : Nat} {bytes : List Byte} (h : outstanding callers n = some bytes) :
    ∃ c ∈ callers, c.caller = n ∧ c.cmd = bytes := by
  induction callers with
  | nil => simp [outstanding] at h
  | cons c rest ih =>
    simp only [outstanding] at h
    split at h <;> rename_i hc
    · exact ⟨c, by simp, hc, by simpa using h⟩
    · obtain ⟨d, hd, e⟩ := ih h
      exact ⟨d, by simp [hd], e⟩

/-! ## One step, by its turn -/

/-- All a step can do: if it answers a next state, one of these six holds. -/
theorem step_cases {s t : State} (h : step s = .next t) :
    (turnOf s = .count ∧ t = countTurn (beginTurn s)) ∨
      (turnOf s = .service ∧ exec .tick (beginTurn s) = .next t) ∨
      (∃ n bytes, turnOf s = .issue n bytes ∧ isCommand bytes = true ∧
        ((outstanding s.callers n ≠ none ∧ t = beginTurn s) ∨
          (outstanding s.callers n = none ∧
            t = { beginTurn s with callers := s.callers ++ [{ caller := n, cmd := bytes }] }))) ∨
      (∃ n, turnOf s = .serve n ∧
        ((outstanding s.callers n = none ∧ t = beginTurn s) ∨
          ∃ bytes, outstanding s.callers n = some bytes ∧
            ∃ u, runCommand .caller bytes (beginTurn s) = .next u ∧ t = deliver n u)) ∨
      (∃ level, turnOf s = .ready level ∧ t = { beginTurn s with deviceReady := level }) ∨
      ∃ draw, turnOf s = .reset draw ∧ t = resetMachine draw (beginTurn s) := by
  unfold step at h
  cases ht : turnOf s with
  | count => rw [ht] at h; simp only [runTurn, Host.Outcome.next.injEq] at h; simp [h]
  | service => rw [ht, runTurn_service] at h; simp [h]
  | issue n bytes =>
    rw [ht] at h
    simp only [runTurn, issueCommand, beginTurn_callers] at h
    split at h
    · rename_i hc
      simp only [Host.Outcome.next.injEq] at h
      split at h <;> rename_i ho
      · simp [← h, hc, Option.isSome_iff_ne_none.mp ho]
      · simp only [Bool.not_eq_true, Option.isSome_eq_false_iff, Option.isNone_iff_eq_none] at ho
        simp [← h, hc, ho]
    · simp at h
  | serve n =>
    rw [ht] at h
    simp only [runTurn, serveCaller, beginTurn_callers] at h
    split at h <;> rename_i ho
    · simp only [Host.Outcome.next.injEq] at h
      simp [ho, h]
    · rename_i bytes
      unfold deliverOutcome at h
      split at h <;> simp_all
  | ready level => rw [ht] at h; simp only [runTurn, Host.Outcome.next.injEq] at h; simp [← h]
  | reset draw => rw [ht] at h; simp only [runTurn, Host.Outcome.next.injEq] at h; simp [h]

/-- All a caller's transaction can do. -/
theorem runCommand_cases {who : Issuer} {bytes : List Byte} {s t : State} (h : runCommand who bytes s = .next t) :
    (∃ i, decode who bytes = .instr i ∧ exec i s = .next t) ∨
      (decode who bytes = .illegal ∧ t = raiseError .errIllegal s) := by
  unfold runCommand at h
  split at h <;> simp_all

/-- What a delivery does (30_encoding.md R80, R89). -/
theorem deliver_cases (n : Nat) (s : State) :
    (s.response = none ∧ deliver n s = s) ∨
      ∃ r, s.response = some r ∧ deliver n s =
        { s with callers := withoutCaller s.callers n, answers := { caller := n, response := r } :: s.answers } := by
  unfold deliver; split <;> simp_all

/-! ## One step, by what it does to the block -/

/-- The ways a step can change the block, one for each rule that writes it (10_state.md R39). -/
inductive BlockChange (s : State) : Block → Prop where
  | same : BlockChange s s.blk
  | counted : countsNext s = true → BlockChange s (timerCount s.params s.blk)
  | serviced (d : Bool) : servicesNext s = true → (s.params.rearmMayFail = false → d = false) →
      BlockChange s (serviceBlock s.params d s.blk)
  | failed (n : Nat) (c : Ctx) (f : Word) (cause : ErrCode) : instrNext s = some (some n, .init c f) →
      s.blk.state = .uninit → cause = .deviceNotReady ∨ cause = .rateZero ∨ cause = .rateOverflow →
      BlockChange s (failConfig cause s.blk)
  | started (n : Nat) (c : Ctx) (f : Word) (period : Nat) : instrNext s = some (some n, .init c f) →
      s.blk.state = .uninit → 1 ≤ period → period ≤ timerTop s.params → BlockChange s (startTimer s.params period s.blk)
  | dropped (n : Nat) (c : Ctx) (l : BitVec 16) (b : List Byte) : instrNext s = some (some n, .enq c l b) →
      s.blk.queue.length = s.params.qcap → BlockChange s { s.blk with drop := s.blk.drop + 1 }
  | appended (n : Nat) (c : Ctx) (l : BitVec 16) (b : List Byte) (r : List Byte) :
      instrNext s = some (some n, .enq c l b) → s.blk.queue.length ≠ s.params.qcap → r.length = s.params.recBytes →
      BlockChange s { s.blk with queue := s.blk.queue ++ [r] }
  | removed (n : Nat) (c : Ctx) (r : List Byte) (rest : List (List Byte)) : instrNext s = some (some n, .deq c) →
      s.blk.queue = r :: rest → BlockChange s { s.blk with queue := rest }
  | taken (n : Nat) (c : Ctx) (k : Signal) : instrNext s = some (some n, .take c k) → s.blk.sig k ≠ 0 →
      BlockChange s (s.blk.setSig k (s.blk.sig k - 1))
  | reset (draw : Nat) : turnOf s = .reset draw → BlockChange s (Block.reset (wrapTimer s.params draw))

theorem exec_block_change {s v u : State} {n : Nat} {i : Instr} (hn : instrNext s = some (some n, i))
    (hb : v.blk = s.blk) (hp : v.params = s.params) (hi : i ≠ .tick) (h : exec i v = .next u) :
    u.params = s.params ∧ BlockChange s u.blk := by
  cases i with
  | tick => exact absurd rfl hi
  | init c f =>
    rw [exec_init] at h
    obtain rfl := Host.Outcome.next.inj h
    rcases checkCtx_cases (.init c f) (configure f) v with ⟨_, e⟩ | ⟨_, e⟩ <;> rw [e]
    · rcases configure_cases f v with ⟨_, e⟩ | ⟨hu, _, e⟩ | ⟨hu, _, _, e⟩ | ⟨hu, _, _, e⟩ | ⟨hu, _, h1, h2, e⟩ <;> rw [e]
      · exact ⟨hp, by simpa [hb] using BlockChange.same⟩
      · exact ⟨hp, by simpa [hb] using .failed n c f .deviceNotReady hn (hb ▸ hu) (by simp)⟩
      · exact ⟨hp, by simpa [hb] using .failed n c f .rateZero hn (hb ▸ hu) (by simp)⟩
      · exact ⟨hp, by simpa [hb] using .failed n c f .rateOverflow hn (hb ▸ hu) (by simp)⟩
      · exact ⟨hp, by simpa [hb, hp] using .started n c f (periodOf s.params f) hn (hb ▸ hu) (hp ▸ h1) (hp ▸ h2)⟩
    · exact ⟨hp, by simpa [hb] using BlockChange.same⟩
  | enq c l b =>
    by_cases hl : b.length = l.toNat
    · rw [exec_enq hl] at h
      obtain rfl := Host.Outcome.next.inj h
      rcases enqueue_cases l.toNat b v with ⟨hq, e⟩ | ⟨hq, e⟩ <;> rw [e]
      · exact ⟨hp, by simpa [hb] using .dropped n c l b hn (by rw [← hb, ← hp]; exact hq)⟩
      · have hr := recordOf_length s.params hl v.draws
        exact ⟨hp, by simpa [hb, hp] using BlockChange.appended n c l b _ hn (by rw [← hb, ← hp]; exact hq) hr⟩
    · simp [exec, execEnq, hl] at h
  | deq c =>
    rw [exec_deq] at h
    obtain rfl := Host.Outcome.next.inj h
    rcases checkCtx_cases (.deq c) dequeue v with ⟨_, e⟩ | ⟨_, e⟩ <;> rw [e]
    · rcases dequeue_cases v with ⟨_, e⟩ | ⟨r, rest, hq, e⟩ <;> rw [e]
      · exact ⟨hp, by simpa [hb] using BlockChange.same⟩
      · exact ⟨hp, by simpa [hb] using .removed n c r rest hn (hb ▸ hq)⟩
    · exact ⟨hp, by simpa [hb] using BlockChange.same⟩
  | take c k =>
    rw [exec_take] at h
    obtain rfl := Host.Outcome.next.inj h
    rcases checkCtx_cases (.take c k) (takeSignal k) v with ⟨_, e⟩ | ⟨_, e⟩ <;> rw [e]
    · rcases takeSignal_cases k v with ⟨_, e⟩ | ⟨hz, e⟩ <;> rw [e]
      · exact ⟨hp, by simpa [hb] using BlockChange.same⟩
      · exact ⟨hp, by simpa [hb] using .taken n c k hn (hb ▸ hz)⟩
    · exact ⟨hp, by simpa [hb] using BlockChange.same⟩
  | rdstat c => rw [exec_rdstat] at h; obtain rfl := Host.Outcome.next.inj h; exact ⟨hp, by simpa [hb] using BlockChange.same⟩
  | rddrop c => rw [exec_rddrop] at h; obtain rfl := Host.Outcome.next.inj h; exact ⟨hp, by simpa [hb] using BlockChange.same⟩

/-- A step never writes the parameters, and changes the block in one of the ways of `BlockChange`. -/
theorem step_block_change {s t : State} (h : step s = .next t) : t.params = s.params ∧ BlockChange s t.blk := by
  rcases step_cases h with ⟨ht, rfl⟩ | ⟨ht, hx⟩ | ⟨n, b, ht, _, ⟨_, rfl⟩ | ⟨_, rfl⟩⟩ | ⟨n, ht, ⟨_, rfl⟩ | ⟨b, ho, u, hr, rfl⟩⟩ |
    ⟨l, ht, rfl⟩ | ⟨d, ht, rfl⟩
  · refine ⟨by simp, ?_⟩
    unfold countTurn
    split
    · rename_i hc
      have : countsNext s = true := by simpa [countsNext, ht] using hc
      simpa using BlockChange.counted this
    · simpa using BlockChange.same
  · by_cases hp : s.blk.tickPending = true
    · rw [exec_tick_pending (by simpa using hp)] at hx
      obtain rfl := Host.Outcome.next.inj hx
      refine ⟨by simp, ?_⟩
      have : servicesNext s = true := by simp [servicesNext, ht, hp]
      have hd : s.params.rearmMayFail = false → deviceDraw (beginTurn s) = false := by
        intro hf; simp [deviceDraw, hf]
      simpa using BlockChange.serviced _ this hd
    · rw [exec_tick_idle (by simpa using hp)] at hx
      obtain rfl := Host.Outcome.next.inj hx
      exact ⟨by simp, by simpa using BlockChange.same⟩
  · exact ⟨by simp, by simpa using BlockChange.same⟩
  · exact ⟨by simp, by simpa using BlockChange.same⟩
  · exact ⟨by simp, by simpa using BlockChange.same⟩
  · simp only [deliver_params, deliver_blk]
    rcases runCommand_cases hr with ⟨i, hd, hx⟩ | ⟨_, rfl⟩
    · exact exec_block_change (n := n) (by simp [instrNext, ht, ho, hd]) (by simp) (by simp) (decode_caller_instr hd).1 hx
    · exact ⟨by simp, by simpa using BlockChange.same⟩
  · exact ⟨by simp, by simpa using BlockChange.same⟩
  · exact ⟨by simp, by simpa using BlockChange.reset d ht⟩

end Sys2Proof.Machine
end

