-- ==== Sys2Proof/Laws/Directives.lean ====
section
/-! SUPPORT. What running a list of turns does, and what the harness directives stand for (30_encoding.md R100). -/

namespace Sys2Proof.Machine

/-! ## Running turns -/

/-- The machine after one timer count (no response stands). -/
def countedOnce (s : State) : State := { countTurn s with response := none }

@[simp] theorem countedOnce_params (s : State) : (countedOnce s).params = s.params := by
  unfold countedOnce countTurn; split <;> rfl

@[simp] theorem countedOnce_agenda (s : State) : (countedOnce s).agenda = s.agenda := by
  unfold countedOnce countTurn; split <;> rfl

theorem countedOnce_blk (s : State) :
    (countedOnce s).blk = if countEnabled s.params s.blk then timerCount s.params s.blk else s.blk := by
  unfold countedOnce countTurn; split <;> rfl

@[simp] theorem runTurns_nil (s : State) : runTurns [] s = .next s := rfl

theorem runTurns_count (rest : List Turn) (s : State) : runTurns (.count :: rest) s = runTurns rest (countedOnce s) := by
  have h : step { s with agenda := .count :: (rest ++ s.agenda) } =
      .next { countedOnce s with agenda := rest ++ s.agenda } := by
    unfold step turnOf beginTurn runTurn countedOnce countTurn
    dsimp only
    split <;> rfl
  show steps (rest.length + 1) { s with agenda := .count :: (rest ++ s.agenda) } = _
  simp only [steps, h]
  simp only [runTurns, countedOnce_agenda]

theorem runTurns_counts (k : Nat) (rest : List Turn) (s : State) :
    runTurns (List.replicate k .count ++ rest) s = runTurns rest (countedOnce^[k] s) := by
  induction k generalizing s with
  | zero => rfl
  | succ k ih => rw [List.replicate_succ, List.cons_append, runTurns_count, ih, Function.iterate_succ_apply]

theorem runTurns_replicate_count (k : Nat) (s : State) :
    runTurns (List.replicate k .count) s = .next (countedOnce^[k] s) := by
  simpa using runTurns_counts k [] s

/-- The machine after the service of a pending expiry. -/
def servedOnce (s : State) : State :=
  { s with blk := serviceBlock s.params (deviceDraw s) s.blk, draws := s.draws + deviceDraws s, response := none }

theorem runTurns_service {s : State} (h : s.blk.tickPending = true) (rest : List Turn) :
    runTurns (.service :: rest) s = runTurns rest (servedOnce s) := by
  have h' : step { s with agenda := .service :: (rest ++ s.agenda) } =
      .next { servedOnce s with agenda := rest ++ s.agenda } := by
    rw [step, show turnOf { s with agenda := .service :: (rest ++ s.agenda) } = .service from rfl, runTurn_service,
      exec_tick_pending (by simpa [beginTurn] using h)]
    rfl
  show steps (rest.length + 1) { s with agenda := .service :: (rest ++ s.agenda) } = _
  simp only [steps, h']
  rfl

theorem runTurns_ready (level : Bool) (s : State) :
    runTurns [.ready level] s = .next { s with deviceReady := level, response := none } := rfl

/-- While no expiry is pending a count is an enabled step (41_tick.md R144). -/
theorem countEnabled_of_not_pending (p : Params) {b : Block} (h : b.tickPending = false) : countEnabled p b = true := by
  unfold countEnabled; split <;> simp [h]

/-! ## COUNT -/

theorem countsEnabled_iff (n : Nat) (s : State) : countsEnabled s.params n s.blk = true ↔
    ∀ j, j < n → countEnabled s.params (countedOnce^[j] s).blk = true := by
  induction n generalizing s with
  | zero => simp [countsEnabled]
  | succ n ih =>
    have hi := ih (countedOnce s)
    simp only [countedOnce_params, countedOnce_blk] at hi
    simp only [countsEnabled, Bool.and_eq_true]
    constructor
    · rintro ⟨h0, h1⟩ j hj
      rw [if_pos h0] at hi
      cases j with
      | zero => exact h0
      | succ j => rw [Function.iterate_succ_apply]; exact hi.mp h1 j (by omega)
    · intro h
      have h0 : countEnabled s.params s.blk = true := h 0 (by omega)
      rw [if_pos h0] at hi
      refine ⟨h0, hi.mpr fun j hj => ?_⟩
      have := h (j + 1) (by omega)
      rwa [Function.iterate_succ_apply] at this

/-! ## TICKS -/

/-- The number of counts that `countsUntilPending` answers is the fewest that bring an expiry. -/
theorem countsUntilPending_some {fuel k : Nat} {s : State} (h : countsUntilPending s.params fuel s.blk = some k) :
    ∀ j, j ≤ k → ((countedOnce^[j] s).blk.tickPending = true ↔ j = k) := by
  induction fuel generalizing s k with
  | zero =>
    simp only [countsUntilPending] at h
    split at h
    · obtain rfl := Option.some.inj h
      intro j hj; obtain rfl : j = 0 := by omega
      simpa
    · simp at h
  | succ fuel ih =>
    simp only [countsUntilPending] at h
    split at h <;> rename_i hp
    · obtain rfl := Option.some.inj h
      intro j hj; obtain rfl : j = 0 := by omega
      simpa
    · split at h
      swap
      · simp at h
      obtain ⟨k', hk, rfl⟩ := Option.map_eq_some_iff.mp h
      have hc := countEnabled_of_not_pending s.params (b := s.blk) (by simpa using hp)
      have hi := ih (s := countedOnce s) (k := k') (by rw [countedOnce_params, countedOnce_blk, if_pos hc]; exact hk)
      intro j hj
      cases j with
      | zero => simpa using hp
      | succ j => rw [Function.iterate_succ_apply, hi j (by omega)]; omega

/-- TICKS, one tick unrolled: the counts, the service, and the rest from there. -/
theorem ticksTurns_succ {n : Nat} {s : State} {turns : List Turn} (h : ticksTurns (n + 1) s = some turns) :
    ∃ k more, countsUntilPending s.params (2 ^ s.params.tw) s.blk = some k ∧
      runTurns (List.replicate k .count ++ [.service]) s = .next (servedOnce (countedOnce^[k] s)) ∧
      ticksTurns n (servedOnce (countedOnce^[k] s)) = some more ∧ turns = List.replicate k .count ++ .service :: more := by
  simp only [ticksTurns] at h
  split at h
  · simp at h
  · rename_i k hk
    have hr : runTurns (List.replicate k .count ++ [.service]) s = .next (servedOnce (countedOnce^[k] s)) := by
      rw [runTurns_counts, runTurns_service ((countsUntilPending_some hk k le_rfl).mpr rfl), runTurns_nil]
    rw [hr] at h
    obtain ⟨more, hm, rfl⟩ := Option.map_eq_some_iff.mp h
    exact ⟨k, more, hk, hr, hm, rfl⟩

end Sys2Proof.Machine
end

