-- ==== Sys2Proof/Laws/PerInstr.lean ====
section
/-! SUPPORT. Facts about every instruction as syntax, one lemma per constructor. -/

namespace Sys2Proof.Laws.Framed

/-- The transaction of a well-formed instruction is framed: its word declares exactly the operands it carries
(30_encoding.md R80, R88). -/
def Statement (i : Instr) : Prop :=
  wellFormed i = true → splitCommand (encode i) = some (encodeWord i, encodeOperand i)

theorem init (ctx : Ctx) (freq : Word) : Statement (.init ctx freq) := fun _ =>
  splitCommand_wordBytes _ _ (by simp [encodeWord, encodeOperand, operandBytes])

theorem tick : Statement .tick := fun _ =>
  splitCommand_wordBytes _ _ (by simp [encodeWord, encodeOperand, operandBytes])

theorem enq (ctx : Ctx) (len : BitVec 16) (payload : List Byte) : Statement (.enq ctx len payload) := fun h =>
  splitCommand_wordBytes _ _ (by simpa [encodeWord, encodeOperand, operandBytes, wellFormed] using h)

theorem deq (ctx : Ctx) : Statement (.deq ctx) := fun _ =>
  splitCommand_wordBytes _ _ (by simp [encodeWord, encodeOperand, operandBytes])

theorem take (ctx : Ctx) (sel : Signal) : Statement (.take ctx sel) := fun _ =>
  splitCommand_wordBytes _ _ (by simp [encodeWord, encodeOperand, operandBytes])

theorem rdstat (ctx : Ctx) : Statement (.rdstat ctx) := fun _ =>
  splitCommand_wordBytes _ _ (by simp [encodeWord, encodeOperand, operandBytes])

theorem rddrop (ctx : Ctx) : Statement (.rddrop ctx) := fun _ =>
  splitCommand_wordBytes _ _ (by simp [encodeWord, encodeOperand, operandBytes])

end Sys2Proof.Laws.Framed
end

