-- ==== Sys2Proof/Machine/Assembly.lean ====
section
/-! DEFINITION. The spec's assembler forms that are not commands of their own: pseudo-instructions (30_encoding.md R99)
and the written form of a command (R98). -/

namespace Sys2Proof.Machine

/-- `ENQZ.ctx`: an ENQ of no bytes (30_encoding.md R99). -/
def pseudoEnqz (ctx : Ctx) : Instr := .enq ctx 0 []

/-- `ENQS.ctx "text"`: an ENQ of the text's ASCII bytes, first character first (30_encoding.md R99). -/
def pseudoEnqs (ctx : Ctx) (text : List Char) : Instr :=
  .enq ctx (BitVec.ofNat 16 text.length) (text.map fun c => BitVec.ofNat 8 c.toNat)

/-- The suffix naming a context (30_encoding.md R98). -/
def ctxName : Ctx → String
  | .task => "task"
  | .isr => "isr"
  | .worker => "worker"

/-- The operand naming a signal (30_encoding.md R98). -/
def signalName : Signal → String
  | .base => "base"
  | .d10 => "d10"
  | .d100 => "d100"

/-- The written form of a command, numbers in decimal (30_encoding.md R98). TICK is no command and has none (R97). -/
def assembly : Instr → String
  | .init ctx freq => "INIT." ++ ctxName ctx ++ " " ++ Nat.repr freq.toNat
  | .tick => ""
  | .enq ctx len payload =>
    "ENQ." ++ ctxName ctx ++ " " ++ Nat.repr len.toNat
      ++ ", [" ++ String.intercalate ", " (payload.map fun b => Nat.repr b.toNat) ++ "]"
  | .deq ctx => "DEQ." ++ ctxName ctx
  | .take ctx sel => "TAKE." ++ ctxName ctx ++ " " ++ signalName sel
  | .rdstat ctx => "RDSTAT." ++ ctxName ctx
  | .rddrop ctx => "RDDROP." ++ ctxName ctx

end Sys2Proof.Machine
end

