-- ==== Sys2Proof/Tests/Slice0.lean ====
section
/-! SUPPORT. The model's own tests: decoding of words written out from the spec's encoding, a few steps whose results the spec
gives, and for every statement with hypotheses a concrete case that meets them all. -/

namespace Sys2Proof.Tests

open Sys2Proof Sys2Proof.Machine

/-! ## Small states -/

/-- The reset machine with another block, outstanding commands and turns. -/
def machine (b : Block) (callers : List Port) (agenda : List Turn) : State :=
  { State.reset with blk := b, callers := callers, agenda := agenda }

/-- RUNNING with period 1000, the alarm `d` counts above 1000, no expiry pending. -/
def running : Block := { Block.reset 1000 with state := .running, period := 1000, deadline := 2000 }

/-- The state of 41_tick.md R147: an expiry at 2000 pending for 300 counts. -/
def pending : Block :=
  { running with now := 2300, tickPending := true, elapsed := 300, cnt10 := 9, cnt100 := 19 }

/-- A pending expiry whose lateness has reached `e` counts. -/
def late (e : Nat) : Block := { pending with now := 2000 + e, elapsed := e }

/-- HALTED by a late re-arm, with two releases left. -/
def halted : Block := { Block.reset 0 with state := .halted, err := .rearmLate, period := 1000, sigBase := 2 }

/-- CFGFAIL by a rate of zero. -/
def failed : Block := { Block.reset 0 with state := .cfgfail, err := .rateZero }

/-- Small parameters: an 8-bit timer, two records of two bytes, a latency bound. -/
def small : Params := { Params.spec with qcap := 2, recBytes := 2, tw := 8, latencyBound := some 3 }

/-- A record of REC bytes. -/
def record (b : Byte) : List Byte := List.replicate 32 b

/-- Caller 0 waits in a TAKE of the base signal and caller 1 too. -/
def twoTakes : List Port := [⟨0, encode (.take .task .base)⟩, ⟨1, encode (.take .task .base)⟩]

/-- Two callers wait in DEQ. -/
def twoDeqs : List Port := [⟨0, encode (.deq .worker)⟩, ⟨1, encode (.deq .worker)⟩]

/-- The next state of an outcome, the given one if there is none. -/
def after (s : State) : Host.Outcome State Fault Refusal → State
  | .next t => t
  | .fault _ => s
  | .refused _ => s

/-- The state after an instruction, and after a step. -/
def ran (i : Instr) (s : State) : State := after s (exec i s)

def stepped (s : State) : State := after s (step s)

/-! ## WellFormed: an ill-formed term is refused -/

theorem test_enq_short_payload_refused : wellFormed (.enq .isr 3 [1, 2]) = false := by decide
theorem test_enq_long_payload_refused : wellFormed (.enq .isr 3 [1, 2, 3, 4]) = false := by decide
theorem test_enq_exact_payload_accepted : wellFormed (.enq .isr 3 [1, 2, 3]) = true := by decide

/-! ## Decoding: words written out from 30_encoding.md R81 to R88 and R101, 95_test_vectors.md 2.1 -/

theorem test_decode_init :
    decode .caller [0x00, 0x00, 0x00, 0x10, 0x40, 0x42, 0x0F, 0x00] = .instr (.init .task 1000000) := by decide
theorem test_decode_tick : decode .alarm [0x00, 0x00, 0x00, 0x20] = .instr .tick := by decide
theorem test_decode_enq :
    decode .caller [0x05, 0x00, 0x00, 0x34, 1, 2, 3, 4, 5] = .instr (.enq .isr 5 [1, 2, 3, 4, 5]) := by decide
theorem test_decode_deq : decode .caller [0x00, 0x00, 0x00, 0x48] = .instr (.deq .worker) := by decide
theorem test_decode_take : decode .caller [0x00, 0x00, 0x00, 0x52] = .instr (.take .task .d100) := by decide
theorem test_decode_rdstat : decode .caller [0x00, 0x00, 0x00, 0x64] = .instr (.rdstat .isr) := by decide
theorem test_decode_rddrop : decode .caller [0x00, 0x00, 0x00, 0x78] = .instr (.rddrop .worker) := by decide

/-- V-E1 to V-E10: the illegal words of the spec's decode vectors. -/
theorem test_decode_illegal :
    [[0x00, 0x00, 0x00, 0x00], [0x00, 0x00, 0x00, 0x20], [0x00, 0x00, 0x00, 0x80], [0x00, 0x00, 0x00, 0xF0],
      [0x00, 0x00, 0x00, 0x6C], [0x00, 0x00, 0x01, 0x60], [0x00, 0x00, 0x00, 0x61], [0x05, 0x00, 0x00, 0x60],
      [0x00, 0x00, 0x00, 0x53], [0x00, 0x00, 0x00, 0x4C]].all (fun b => decode .caller b = .illegal) = true := by decide

/-- V-E16: an illegal ENQ word with its 65535 payload bytes. -/
theorem test_decode_illegal_enq : legalWord 0x3700FFFF = false ∧ operandBytes 0x3700FFFF = 65535 := by decide

/-- R88: one byte short of LEN, and one too many. -/
theorem test_decode_wrong_length : decode .caller [0x02, 0x00, 0x00, 0x30, 7] = .notACommand ∧
    decode .caller [0x02, 0x00, 0x00, 0x30, 7, 8, 9] = .notACommand := by decide

/-- Fewer than four bytes are no command word. -/
theorem test_decode_truncated : decode .caller [0x00, 0x00, 0x48] = .notACommand := by decide

theorem test_table_words : decodeTableWord 32 0x10000000 = some (.init .task 0) ∧ decodeTableWord 32 0x20000000 = some .tick ∧
    decodeTableWord 32 0x38000002 = some (.enq .worker 2 [0, 0]) ∧ decodeTableWord 32 0x4C000000 = none := by decide

/-- The step after `withFetchWord` runs the word's instruction: TICK from the alarm, RDSTAT for caller 0. -/
theorem test_fetch : (stepped (State.reset.withFetchWord 32 0x20000000)).blk.sigBase = 1 ∧
    (stepped (State.reset.withFetchWord 32 0x60000000)).answers = [⟨0, ⟨.ok, 0, none⟩⟩] := by decide

/-- 30_encoding.md R98, R99: the written forms. -/
theorem test_assembly : assembly (.enq .task 2 [0xAA, 7]) = "ENQ.task 2, [170, 7]" ∧
    pseudoEnqs .isr ['A'] = .enq .isr 1 [0x41] ∧ assembly (.take .task .d10) = "TAKE.task d10" := by decide

/-- R100's TICKS from an expiry already pending for 3 counts of a period of 10: the next one is 7 counts away, then 10. SERVICE is
legal there, and with no expiry pending it is not; a block that is not RUNNING takes no tick. -/
theorem test_ticks_from_pending :
    let b := { running with now := 23, deadline := 20, period := 10, tickPending := true, elapsed := 3 }
    let s := { machine b [] [] with params := { Params.spec with tw := 8 } }
    directiveTurns (.ticks 3) s = some ([.service] ++ List.replicate 7 .count ++ [.service] ++ List.replicate 10 .count
        ++ [.service]) ∧ directiveTurns .service s = some [.service] ∧
      directiveTurns .service (machine running [] []) = none ∧
      directiveTurns (.ticks 1) { machine failed [] [] with params := { Params.spec with tw := 8 } } = none := by decide

/-- P5 lines 3 and 4 with a period of 20: one tick, 20 counts away. -/
theorem test_ticks_from_init :
    let s := { machine { running with now := 250, deadline := 14, period := 20 } [] [] with params := { Params.spec with tw := 8 } }
    directiveTurns (.ticks 1) s = some (List.replicate 20 .count ++ [.service]) := by decide

/-! ## One step, with the result the spec gives -/

/-- V-I2: the first deadline wraps. -/
theorem test_init_deadline_wraps : let t := ran (.init .task 1000000) (machine (Block.reset 0xFFFFFC18) [] [])
    t.response = some ⟨.ok, 1000, none⟩ ∧ t.blk.deadline = 0 ∧ t.blk.state = .running := by decide

/-- V-I8 and V-I9: the overflow boundary at TW = 16. -/
theorem test_init_overflow : let s := State.resetWith { Params.spec with tw := 16 } 0 true []
    (ran (.init .task 65536000) s).response = some ⟨.errRateOverflow, 0, none⟩ ∧
      (ran (.init .task 65535999) s).response = some ⟨.ok, 65535, none⟩ := by decide

/-- 41_tick.md R147. -/
theorem test_tick : let t := ran .tick (machine pending [] [])
    t.blk.deadline = 3000 ∧ t.blk.sigBase = 1 ∧ t.blk.sigD10 = 1 ∧ t.blk.sigD100 = 0 ∧ t.blk.cnt10 = 0 ∧ t.blk.cnt100 = 20 := by
  decide

/-- 41_tick.md R146: a lateness of P halts with the releases standing; V-S7 reads it. -/
theorem test_tick_late : let t := ran .tick (machine (late 1000) [] [])
    t.blk.state = .halted ∧ t.blk.deadline = 2000 ∧ t.blk.sigBase = 1 ∧ statusView t.blk = 0x0000A002 := by decide

/-- V-R7's wrap in the count: the expiry at a wrapped deadline. -/
theorem test_count_expires : (timerCount Params.spec { running with now := 0xFFFFFFFF, deadline := 0 }).tickPending = true := by
  decide

/-- V-Q5: a payload of 40 bytes is cut to 32. -/
theorem test_enq_truncates : let b := (List.range 40).map (BitVec.ofNat 8)
    (ran (.enq .task 40 b) State.reset).blk.queue = [b.take 32] := by decide

/-- V-Q4: the drop counter wraps. -/
theorem test_enq_full :
    let s := machine { Block.reset 0 with queue := List.replicate 16 (record 0), drop := 0xFFFFFFFF } [] []
    let t := ran (.enq .isr 1 [7]) s
    t.response = some ⟨.full, 0, none⟩ ∧ t.blk.drop = 0 ∧ t.blk.queue.length = 16 := by decide

/-- V-Q10: the head leaves, in HALTED too. -/
theorem test_deq : let t := ran (.deq .worker) (machine { halted with queue := [record 1, record 2] } [] [])
    t.response = some ⟨.ok, 0, some (record 1)⟩ ∧ t.blk.queue = [record 2] := by decide

/-- V-Q11: a wrong context answers at once. -/
theorem test_deq_context : (ran (.deq .isr) State.reset).response = some ⟨.errContext, 0, none⟩ := by decide

/-- V-S1. -/
theorem test_take : (ran (.take .task .base) (machine halted [] [])).blk.sigBase = 1 := by decide

/-- V-S3: a D100 count does not satisfy a D10 wait. -/
theorem test_take_holds : let t := ran (.take .task .d10) (machine { running with sigD100 := 1 } [] [])
    t.response = none ∧ t.blk.sigD100 = 1 := by decide

/-- V-S9 and 43_signals_inspect.md R197. -/
theorem test_rdstat : (ran (.rdstat .task) (machine failed [] [])).response = some ⟨.ok, 0x00009103, none⟩ := by decide

/-- V-S10. -/
theorem test_rddrop : (ran (.rddrop .isr) (machine { failed with drop := 7 } [] [])).response = some ⟨.ok, 7, none⟩ := by decide

/-! ## The sample states meet the invariant -/

/-- The invariant of a block from facts that `decide` settles on a concrete one. -/
theorem block_inv {p : Params} {b : Block} (cause : b.causeFits)
    (h : b.queue.length ≤ p.qcap ∧ (∀ r ∈ b.queue, r.length = p.recBytes) ∧ b.cnt10 < p.divA ∧ b.cnt100 < p.divB ∧
      b.sigBase ≤ p.sigLimit ∧ b.sigD10 ≤ p.sigLimit ∧ b.sigD100 ≤ p.sigLimit ∧ b.period ≤ timerTop p ∧
      (b.state = .running → 1 ≤ b.period) ∧ b.now ≤ timerTop p ∧ b.deadline ≤ timerTop p ∧ b.elapsed ≤ timerTop p ∧
      (b.tickPending = true → b.state = .running) ∧ (b.tickPending = false → b.elapsed = 0) ∧
      (b.tickPending = true → b.elapsed < timerTop p → b.now = wrapTimer p (b.deadline + b.elapsed)) ∧
      (b.state = .uninit → b.period = 0 ∧ b.cnt10 = 0 ∧ b.cnt100 = 0 ∧ b.sigBase = 0 ∧ b.sigD10 = 0 ∧ b.sigD100 = 0)) :
    b.Inv p := by
  obtain ⟨h1, h2, h3, h4, h5, h6, h7, h8, h9, h10, h11, h12, h13, h14, h15, h16⟩ := h
  refine ⟨h1, h2, h3, h4, fun k => by cases k <;> assumption, h8, h9, h10, h11, h12, h13, h14, h15, cause, fun hu => ?_⟩
  obtain ⟨a, b, c, d, e, f⟩ := h16 hu
  exact ⟨a, b, c, fun k => by cases k <;> assumption⟩

theorem machine_inv {b : Block} (h : b.Inv Params.spec) (callers : List Port) (agenda : List Turn)
    (hc : ∀ c ∈ callers, isCommand c.cmd = true) (hn : (callers.map Port.caller).Nodup) : (machine b callers agenda).Inv :=
  ⟨(by decide : Params.spec.wf = true), h, hc, hn⟩

theorem fresh_block : (Block.reset 5).Inv Params.spec := block_inv rfl (by decide)
theorem running_block : running.Inv Params.spec := block_inv rfl (by decide)
theorem halted_block : halted.Inv Params.spec := block_inv (.inl rfl) (by decide)
theorem failed_block : failed.Inv Params.spec := block_inv (.inr (.inl rfl)) (by decide)
theorem late_0 : (late 0).Inv Params.spec := block_inv rfl (by decide)
theorem late_300 : (late 300).Inv Params.spec := block_inv rfl (by decide)
theorem late_999 : (late 999).Inv Params.spec := block_inv rfl (by decide)
theorem late_1000 : (late 1000).Inv Params.spec := block_inv rfl (by decide)

theorem inv_fresh : (machine (Block.reset 5) [] []).Inv := machine_inv fresh_block _ _ (by simp) (by simp)

theorem inv_running (callers : List Port) (agenda : List Turn) (hc : ∀ c ∈ callers, isCommand c.cmd = true)
    (hn : (callers.map Port.caller).Nodup) : (machine running callers agenda).Inv :=
  machine_inv running_block _ _ hc hn

theorem inv_late {p : Params} {e : Nat} (h : p.wf = true) (agenda : List Turn) (b : (late e).Inv p) :
    State.Inv { machine (late e) [] agenda with params := p } := ⟨h, b, by simp [machine], by simp [machine]⟩

theorem inv_halted (agenda : List Turn) : (machine halted [] agenda).Inv :=
  machine_inv halted_block _ _ (by simp) (by simp)

theorem inv_failed (agenda : List Turn) : (machine failed [] agenda).Inv :=
  machine_inv failed_block _ _ (by simp) (by simp)

/-- A run of one step. -/
theorem run_one {s t : State} (hr : resetsNext s = false) (h : step s = .next t) : Run s [s] t := .next .start hr h

/-! ## Witnesses: a case that meets the hypotheses of each statement -/

theorem witness_DecodeOfEncodeIsIdentity : wellFormed (.enq .isr 0 []) = true ∧ wellFormed (.init .isr 7) = true := by decide

theorem witness_EncodeOfDecodeIsIdentity : decode .caller [0x01, 0x00, 0x00, 0x38, 9] = .instr (.enq .worker 1 [9]) := by decide

/-- Both disjuncts: a legal ENQ word and an illegal one with its 65535 bytes. -/
theorem witness_DecoderIsTotal : ([1, 2, 3, 4, 5] : List Byte).length = operandBytes 0x34000005 ∧
    (List.replicate 65535 (0 : Byte)).length = operandBytes 0x3700FFFF := by
  rw [List.length_replicate]; decide

theorem witness_IllegalEncodingsInFull : ([] : List Byte).length = operandBytes 0x6C000000 ∧
    decode .caller (wordBytes 0x6C000000) = .illegal := by decide

/-- LEN = 0 with one byte, and LEN = 2 with one byte. -/
theorem witness_PayloadOfWrongLengthIsNoCommand :
    let b : List Byte := wordBytes 0x30000002 ++ [7]
    opField 0x30000000 = 0x3 ∧ ([7] : List Byte).length ≠ (lenField 0x30000000).toNat ∧
      opField 0x30000002 = 0x3 ∧ ([7] : List Byte).length ≠ (lenField 0x30000002).toNat ∧
      turnOf (machine running [] [.issue 4 b]) = .issue 4 b := by decide

theorem witness_OnlyTheAlarmIssuesTick : opField 0x2FFFFFFF = 0x2 ∧ decode .alarm (wordBytes 0x20000000) = .instr .tick ∧
    decode .caller (wordBytes 0x50000000) = .instr (.take .task .base) ∧
    ∃ t, exec (.take .task .base) (machine halted [] []) = .next t := ⟨by decide, by decide, by decide, _, rfl⟩

theorem witness_StepRunsDecodedInstruction :
    (let s := machine running twoTakes [.serve 1, .count];
      turnOf s = .serve 1 ∧ outstanding s.callers 1 = some (encode (.take .task .base)) ∧
      decode .caller (encode (.take .task .base)) = .instr (.take .task .base) ∧
      s.agenda = .serve 1 :: [.count] ∧ (ran (.take .task .base) s).response = none) ∧
    turnOf (machine pending [] [.service]) = .service ∧
    (ran (.rddrop .isr) State.reset).response = some ⟨.ok, 0, none⟩ := by decide

theorem witness_ContextTable : ∃ t u v r, exec (.enq .task 0 []) State.reset = .next t ∧ exec (.rdstat .isr) State.reset = .next u ∧
    exec (.rddrop .worker) State.reset = .next v ∧ v.response = some r := ⟨_, _, _, _, rfl, rfl, rfl, rfl⟩

theorem witness_EachCommandAnsweredOnce : ∃ t u, step (machine running [] [.count]) = .next t ∧
    step (machine halted twoTakes [.serve 1]) = .next u ∧ u.answers = [⟨1, ⟨.ok, 0, none⟩⟩] := ⟨_, _, rfl, rfl, by decide⟩

theorem witness_OnlyTakeAndDeqHold :
    (let s := machine running twoTakes [.serve 0];
      turnOf s = .serve 0 ∧ outstanding s.callers 0 = some (encode (.take .task .base)) ∧ (stepped s).response = none) ∧
    (let s := machine running twoDeqs [.serve 1];
      turnOf s = .serve 1 ∧ outstanding s.callers 1 = some (encode (.deq .worker)) ∧ (stepped s).response = none) ∧
    ∃ t u, step (machine running twoTakes [.serve 0]) = .next t ∧ step (machine running twoDeqs [.serve 1]) = .next u :=
  ⟨by decide, by decide, _, _, rfl, rfl⟩

/-- A free port and an occupied one; a legal command and an illegal framed word. -/
theorem witness_EnvironmentTurnsTouchNoBlockState :
    turnOf (machine running twoTakes [.issue 0 (encode (.deq .isr))]) = .issue 0 (encode (.deq .isr)) ∧
      isCommand (encode (.deq .isr)) = true ∧
      turnOf (machine running [] [.issue 0 (wordBytes 0xF0000000)]) = .issue 0 (wordBytes 0xF0000000) ∧
      isCommand (wordBytes 0xF0000000) = true ∧ decode .caller (wordBytes 0xF0000000) = .illegal ∧
      wellFormed (.deq .isr) = true ∧ turnOf (machine running [] [.ready false]) = .ready false := by decide

theorem witness_ErrorClassesByOutcome :
    ((machine failed [] [.count]).Inv ∧ (machine halted [] [.count]).Inv ∧
      resetsNext (machine failed [] [.count]) = false ∧ resetsNext (machine halted [] [.count]) = false) ∧
    (∃ t u, step (machine failed [] [.count]) = .next t ∧ step (machine halted [] [.count]) = .next u) ∧
    (∃ t, step { machine { failed with queue := [record 0, record 1] } [⟨0, encode (.enq .isr 0 [])⟩] [.serve 0] with
        params := { Params.spec with qcap := 2 } } = .next t ∧ t.response = some ⟨.full, 0, none⟩) ∧
    ∃ t, step (machine failed [⟨0, encode (.deq .task)⟩] [.serve 0]) = .next t ∧ t.response = some ⟨.errContext, 0, none⟩ :=
  ⟨⟨inv_failed _, inv_halted _, by decide, by decide⟩, ⟨_, _, rfl, rfl⟩, ⟨_, rfl, by decide⟩, _, rfl, by decide⟩

theorem witness_OneWaiterTakesTheRelease : let s := machine { halted with sigBase := 1 } twoTakes [.serve 1, .serve 0]
    s.blk.sig .base = 1 ∧ turnOf s = .serve 1 ∧ outstanding s.callers 1 = some (encode (.take .task .base)) ∧
      outstanding s.callers 0 = some (encode (.take .task .base)) ∧ turnOf (stepped s) = .serve 0 := by decide

theorem witness_SeveralWorkersKeepFifoOrder :
    let s := machine { halted with queue := [record 1, record 2] } twoDeqs [.serve 1, .serve 0]
    s.blk.queue = record 1 :: record 2 :: [] ∧ turnOf s = .serve 1 ∧
      outstanding s.callers 1 = some (encode (.deq .worker)) ∧ outstanding s.callers 0 = some (encode (.deq .worker)) ∧
      turnOf (stepped s) = .serve 0 := by decide

/-- One malformed INIT word for each of the four fields. -/
theorem witness_InitSemantics : (Ctx.isr ≠ .task) ∧ ([0, 0, 0, 0] : List Byte).length = 4 ∧
    (opField 0x1C000000 = 0x1 ∧ ctxField 0x1C000000 = 0b11) ∧ (opField 0x11000000 = 0x1 ∧ selField 0x11000000 ≠ 0) ∧
    (opField 0x10800000 = 0x1 ∧ rsvField 0x10800000 ≠ 0) ∧ opField 0x10000001 = 0x1 ∧ lenField 0x10000001 ≠ 0 := by decide

theorem witness_PeriodComputation : let s := State.resetWith small 5 true []
    s.params.wf = true ∧ s.blk.state = .uninit ∧ s.deviceReady = true ∧ (ran (.init .task 255999) s).blk.state = .running ∧
      (ran (.init .task 256000) s).blk.err = .rateOverflow ∧ (ran (.init .task 999) s).blk.err = .rateZero ∧
      State.reset.params.tw = 32 := by decide

theorem witness_InitLeavesCountersAndQueue : (machine (Block.reset 5) [] []).Inv ∧
    (machine (Block.reset 5) [] []).blk.state = .uninit := ⟨inv_fresh, rfl⟩

theorem witness_PeriodFixedAfterInit : (machine running [] [.count]).blk.state ≠ .uninit ∧
    Run (machine running [] [.count]) [machine running [] [.count]] (stepped (machine running [] [.count])) :=
  ⟨by decide, run_one (by decide) rfl⟩

theorem witness_ConfigurationErrorIsFinal :
    ((exec (.init .task 0) State.reset = .next (ran (.init .task 0) State.reset)) ∧
      (ran (.init .task 0) State.reset).response = some ⟨.errRateZero, 0, none⟩) ∧
    (machine failed [] [.count]).Inv ∧ (machine failed [] [.count]).blk.state = .cfgfail ∧
    Run (machine failed [] [.count]) [machine failed [] [.count]] (stepped (machine failed [] [.count])) :=
  ⟨⟨rfl, by decide⟩, inv_failed _, rfl, run_one (by decide) rfl⟩

/-- With a bound: not pending at the bound's value, and pending below it. -/
theorem witness_TimerCountStep : let s := { machine running [] [.count] with params := small }
    turnOf s = .count ∧ s.params.latencyBound = some 3 ∧ ¬(s.blk.tickPending = true ∧ s.blk.elapsed = 3) ∧
      ¬((late 2).tickPending = true ∧ (late 2).elapsed = 3) := by decide

theorem witness_ExpiryExactlyAtTheDeadline :
    (let s := machine { running with now := 1999 } [] [.count];
      s.blk.tickPending = false ∧ countsNext s = true ∧ (stepped s).blk.tickPending = true) ∧
    (let s := machine (late 4294967295) [] [.count];
      s.blk.tickPending = true ∧ countsNext s = true) ∧
    ∃ t u, step (machine { running with now := 1999 } [] [.count]) = .next t ∧
      step (machine (late 4294967295) [] [.count]) = .next u := ⟨by decide, by decide, _, _, rfl, rfl⟩

/-- The three clauses: no bound; a bound reached; a run under a bound below the period, with its lateness at the bound. -/
theorem witness_LatencyBoundPreventsLateness :
    (turnOf (machine running [] [.count]) = .count ∧ (machine running [] [.count]).params.latencyBound = none) ∧
    (let s := { machine (late 3) [] [.count] with params := { Params.spec with latencyBound := some 3 } };
      s.Inv ∧ s.blk.state = .running ∧ turnOf s = .count ∧ s.params.latencyBound = some 3 ∧ s.blk.tickPending = true ∧
      s.blk.elapsed = 3 ∧ 3 < s.blk.period ∧ s.blk.elapsed ≤ 3 ∧ Run s [s] (stepped s)) := by
  exact ⟨by decide, inv_late (by decide) _ (block_inv rfl (by decide)), by decide, by decide, by decide, by decide, by decide,
    by decide, by decide, run_one (by decide) rfl⟩

/-- The smallest distance, and a whole turn of an 8-bit counter. -/
theorem witness_ExpiryAfterTheRemainingCounts :
    (let s := machine { running with now := 1999 } [] (List.replicate 1 .count ++ [.service]);
      s.blk.state = .running ∧ s.blk.tickPending = false ∧ (s.blk.now + 1) % 2 ^ s.params.tw = s.blk.deadline) ∧
    (let s := { machine { running with now := 9, deadline := 9, period := 200 } [] (List.replicate 256 .count) with params := small };
      256 ≤ 2 ^ s.params.tw ∧ (s.blk.now + 256) % 2 ^ s.params.tw = s.blk.deadline ∧
      s.agenda = List.replicate 256 .count ++ []) :=
  ⟨by decide, by decide, by decide, (List.append_nil _).symm⟩

theorem witness_TickSemantics : (machine pending [] []).blk.tickPending = true ∧
    (machine running [] []).blk.tickPending = false := by decide

theorem witness_EveryTickReleasesBase : (machine (late 1000) [] []).Inv ∧ (machine (late 1000) [] []).blk.tickPending = true ∧
    (machine (late 1000) [] []).blk.period ≤ (machine (late 1000) [] []).blk.elapsed := ⟨inv_late (by decide) _ late_1000, by decide, by decide⟩

theorem witness_DividersCountTicksOnly : (machine (late 0) [] []).Inv ∧
    (let s := machine (late 0) [] [];
      let s' := machine (late 999) [] [];
      s.params = s'.params ∧ s.blk.tickPending = true ∧ s'.blk.tickPending = true ∧ s.blk.cnt10 = s'.blk.cnt10 ∧
      s.blk.cnt100 = s'.blk.cnt100 ∧ ∀ k, s.blk.sig k = s'.blk.sig k) :=
  ⟨inv_late (by decide) _ late_0, rfl, rfl, rfl, rfl, rfl, fun k => by cases k <;> rfl⟩

/-- One count short of the period, and at the period. -/
theorem witness_RearmFromThePreviousDeadline :
    ((machine (late 999) [] []).Inv ∧ (machine (late 999) [] []).blk.elapsed + 1 = (machine (late 999) [] []).blk.period ∧
      (ran .tick (machine (late 999) [] [])).blk.state = .running ∧ (machine (late 999) [] []).params.rearmMayFail = false) ∧
    (machine (late 1000) [] []).Inv ∧ (machine (late 1000) [] []).blk.tickPending = true ∧
      (ran .tick (machine (late 1000) [] [])).blk.state = .halted :=
  ⟨⟨inv_late (by decide) _ late_999, by decide, by decide, by decide⟩, inv_late (by decide) _ late_1000, by decide, by decide⟩

/-- Both settings of REARM_MAY_FAIL; what the draw is stays open. -/
theorem witness_RearmDeviceFailure :
    ((machine (late 0) [] []).Inv ∧ (machine (late 0) [] []).params.rearmMayFail = false) ∧
    (let s := { machine (late 0) [] [] with params := { Params.spec with rearmMayFail := true } };
      s.Inv ∧ s.params.rearmMayFail = true ∧ s.blk.tickPending = true ∧ s.blk.elapsed < s.blk.period) := by
  exact ⟨⟨inv_late (by decide) _ late_0, by decide⟩, inv_late (by decide) _ (block_inv rfl (by decide)), by decide, by decide, by decide⟩

theorem witness_HaltLastsUntilReset :
    (let s := machine (late 1000) [] [];
      s.Inv ∧ s.blk.tickPending = true ∧ exec .tick s = .next (ran .tick s) ∧ (ran .tick s).blk.state = .halted) ∧
    (let s := machine halted [] [.count];
      s.Inv ∧ s.blk.state = .halted ∧ Run s [s] (stepped s) ∧ 0 < (stepped s).blk.sig .base ∧
      (stepped s).blk.sig .d10 = 0 ∧ (stepped s).blk.queue.length < (stepped s).params.qcap) ∧
    ([] : List Byte).length = (0 : BitVec 16).toNat :=
  ⟨⟨inv_late (by decide) _ late_1000, by decide, rfl, by decide⟩,
    ⟨inv_halted _, rfl, run_one (by decide) rfl, by decide, by decide, by decide⟩, by decide⟩

theorem witness_ServiceErrorsReachStatusOnly : let s := machine (late 1000) [] [.service]
    turnOf s = .service ∧ s.Inv ∧ s.blk.tickPending = true ∧ (stepped s).blk.state = .halted :=
  ⟨by decide, inv_late (by decide) _ late_1000, by decide, by decide⟩

theorem witness_NoDriftWhateverTheJitter : let s := machine running [] [.count]
    s.Inv ∧ s.blk.state = .running ∧ s.blk.tickPending = false ∧
      s.blk.deadline = (s.blk.now + s.blk.period) % 2 ^ s.params.tw ∧ Run s [s] (stepped s) ∧
      (stepped s).blk.state = .running :=
  ⟨inv_running _ _ (by simp) (by simp), by decide, by decide, by decide, run_one (by decide) rfl, by decide⟩

theorem witness_PhaseLockFromReset : let s := State.resetWith small 77 true [.count, .count]
    small.wf = true ∧ Run s [s] (stepped s) ∧ step (stepped s) = .next (stepped (stepped s)) :=
  ⟨by decide, run_one (by decide) rfl, rfl⟩

theorem witness_ReleaseCountsFromReset : let s := State.resetWith small 77 true [.count]
    small.wf = true ∧ Run s [s] (stepped s) ∧ (∀ m ∈ [s], ∀ c k n, instrNext m ≠ some (n, .take c k)) ∧
      ticks [s] ≤ small.sigLimit := by
  refine ⟨by decide, run_one (by decide) rfl, ?_, by decide⟩
  intro m hm c k n h
  rw [List.mem_singleton.mp hm] at h
  simp [instrNext, turnOf, State.resetWith] at h

theorem witness_DerivedReleaseOnlyWithBase : let s := machine (late 300) [] [.service]
    s.Inv ∧ step s = .next (stepped s) ∧ s.blk.sigD10 < (stepped s).blk.sigD10 :=
  ⟨inv_late (by decide) _ late_300, rfl, by decide⟩

/-- A full and a free queue; one malformed ENQ word for each of the three fields. -/
theorem witness_EnqSemantics :
    (([7] : List Byte).length = (1 : BitVec 16).toNat ∧ State.reset.blk.queue.length ≠ State.reset.params.qcap ∧
      (List.replicate 16 (record 0)).length = State.reset.params.qcap ∧ ([1, 2, 3, 4, 5] : List Byte).length = 5) ∧
    (opField 0x3C000000 = 0x3 ∧ ctxField 0x3C000000 = 0b11 ∧ lenField 0x3C000000 = 0) ∧
    (opField 0x31000000 = 0x3 ∧ selField 0x31000000 ≠ 0) ∧ opField 0x30010000 = 0x3 ∧ rsvField 0x30010000 ≠ 0 := by decide

theorem witness_FullQueueCountsTheDrop :
    let s := machine { running with queue := List.replicate 16 (record 0), drop := 0xFFFFFFFF } [] []
    s.blk.queue.length = s.params.qcap ∧ ([] : List Byte).length = (0 : BitVec 16).toNat := by decide

/-- LEN just below, at and just above REC. -/
theorem witness_EnqTruncatesToTheRecord :
    (List.replicate 31 (1 : Byte)).length = (31 : BitVec 16).toNat ∧ (31 : BitVec 16).toNat < State.reset.params.recBytes ∧
      (List.replicate 32 (1 : Byte)).length = (32 : BitVec 16).toNat ∧ (32 : BitVec 16).toNat = State.reset.params.recBytes ∧
      (List.replicate 33 (1 : Byte)).length = (33 : BitVec 16).toNat ∧ State.reset.params.recBytes ≤ (33 : BitVec 16).toNat ∧
      State.reset.blk.queue.length ≠ State.reset.params.qcap := by decide

/-- A queue with a head, an empty one, a wrong context, one malformed word for each field. -/
theorem witness_DeqSemantics : (machine { running with queue := [record 1] } [] []).blk.queue = record 1 :: [] ∧
    State.reset.blk.queue = [] ∧ Ctx.task ≠ .worker ∧ (opField 0x4C000000 = 0x4 ∧ ctxField 0x4C000000 = 0b11) ∧
    (opField 0x49000000 = 0x4 ∧ selField 0x49000000 ≠ 0) ∧ (opField 0x48FF0000 = 0x4 ∧ rsvField 0x48FF0000 ≠ 0) ∧
    opField 0x48008000 = 0x4 ∧ lenField 0x48008000 ≠ 0 := by decide

/-- Caller 0 waits in DEQ on an empty queue and caller 1's ENQ is taken. -/
theorem witness_OnlyAnAcceptedEnqLiftsADeq :
    let s := machine running [⟨0, encode (.deq .worker)⟩, ⟨1, encode (.enq .isr 1 [7])⟩] [.serve 1, .serve 0]
    s.blk.queue = [] ∧ outstanding s.callers 0 = some (encode (.deq .worker)) ∧ step s = .next (stepped s) ∧
      resetsNext s = false ∧ (stepped s).blk.queue.length = 1 ∧ turnOf (stepped s) = .serve 0 :=
  ⟨by decide, by decide, rfl, by decide, by decide, by decide⟩

theorem witness_QueueIndependentOfGenerator :
    sameQueueView (machine { running with queue := [record 1] } [] []) (machine { failed with queue := [record 1] } [] []) ∧
      wellFormed (.enq .isr 1 [7]) = true ∧ exec .tick (machine pending [] []) = .next (ran .tick (machine pending [] [])) ∧
      exec (.init .task 0) State.reset = .next (ran (.init .task 0) State.reset) :=
  ⟨⟨rfl, rfl, rfl, rfl⟩, by decide, rfl, rfl⟩

/-- QCAP + 1 payloads of 0, 2 and 3 bytes for records of 2. -/
theorem witness_OverflowDropsOneAndDrainsInOrder : let s := State.resetWith small 0 true []
    let items : List (Ctx × BitVec 16 × List Byte) := [(.isr, 0, []), (.task, 2, [1, 2]), (.worker, 3, [3, 4, 5])]
    s.blk.queue = [] ∧ s.blk.drop = 0 ∧ items.length = s.params.qcap + 1 ∧ ∀ x ∈ items, x.2.2.length = x.2.1.toNat := by decide

/-- A run that delivers a record, and one that accepts one. -/
theorem witness_RecordsLeaveInOrder :
    (let s := machine { running with queue := [record 1] } twoDeqs [.serve 1];
      Run s [s] (stepped s) ∧ recordsAfter s.answers.length (stepped s) = [record 1]) ∧
    (let s := machine running [⟨0, encode (.enq .isr 32 (record 2))⟩] [.serve 0];
      Run s [s] (stepped s) ∧ accepted [s] = [record 2]) :=
  ⟨⟨run_one (by decide) rfl, by decide⟩, run_one (by decide) rfl, by decide⟩

/-- A count, no count, a wrong context, one malformed word for each field. -/
theorem witness_TakeSemantics : 0 < (machine halted [] []).blk.sig .base ∧ (machine halted [] []).blk.sig .d10 = 0 ∧
    Ctx.isr ≠ .task ∧ (opField 0x5C000000 = 0x5 ∧ ctxField 0x5C000000 = 0b11) ∧
    (opField 0x53000000 = 0x5 ∧ selField 0x53000000 = 0b11) ∧ (opField 0x50010000 = 0x5 ∧ rsvField 0x50010000 ≠ 0) ∧
    opField 0x50000001 = 0x5 ∧ lenField 0x50000001 ≠ 0 := by decide

/-- A TAKE of the 1/10-rate signal lifted by the tenth tick. -/
theorem witness_OnlyAReleaseLiftsATake :
    let s := machine (late 300) [⟨0, encode (.take .task .d10)⟩] [.service, .serve 0]
    s.Inv ∧ s.blk.sig .d10 = 0 ∧ outstanding s.callers 0 = some (encode (.take .task .d10)) ∧ step s = .next (stepped s) ∧
      resetsNext s = false ∧ (stepped s).blk.sig .d10 ≠ 0 ∧ turnOf (stepped s) = .serve 0 := by
  have h := inv_late (by decide) [.service, .serve 0] late_300
  exact ⟨⟨h.params, h.block, by decide, by decide⟩, by decide, by decide, rfl, by decide, by decide, by decide⟩

theorem witness_RdstatReturnsStatus : (opField 0x6C000000 = 0x6 ∧ ctxField 0x6C000000 = 0b11) ∧
    (opField 0x61000000 = 0x6 ∧ selField 0x61000000 ≠ 0) ∧ (opField 0x60010000 = 0x6 ∧ rsvField 0x60010000 ≠ 0) ∧
    opField 0x60000005 = 0x6 ∧ lenField 0x60000005 ≠ 0 := by decide

theorem witness_RddropReturnsTheDropCounter : (opField 0x7C000000 = 0x7 ∧ ctxField 0x7C000000 = 0b11) ∧
    (opField 0x71000000 = 0x7 ∧ selField 0x71000000 ≠ 0) ∧ (opField 0x70010000 = 0x7 ∧ rsvField 0x70010000 ≠ 0) ∧
    opField 0x70000005 = 0x7 ∧ lenField 0x70000005 ≠ 0 := by decide

theorem witness_StepKeepsInvariant : let s := machine running twoTakes [.serve 1]
    s.Inv ∧ step s = .next (stepped s) := ⟨inv_running _ _ (by decide) (by decide), rfl⟩

theorem witness_ResetMeetsInvariant : small.wf = true ∧ Params.spec.wf = true := by decide

theorem witness_ResetPutsEveryField : turnOf (machine pending twoTakes [.reset 4294967296]) = .reset 4294967296 := by decide

theorem witness_FieldsWrittenOnlyAsTabled : let s := machine (late 300) [] [.service]
    step s = .next (stepped s) ∧ resetsNext s = false ∧ (stepped s).blk.cnt10 ≠ s.blk.cnt10 ∧ s.Inv ∧
      (stepped s).blk.tickPending ≠ s.blk.tickPending := ⟨rfl, by decide, by decide, inv_late (by decide) _ late_300, by decide⟩

/-- Both disjuncts: a count, and an issue of one stray byte. -/
theorem witness_OnlyTheTranscriberStops : (machine running [] [.count]).Inv ∧ (machine running [] [.issue 0 [1]]).Inv ∧
    isCommand [1] = false := ⟨inv_running _ _ (by simp) (by simp), inv_running _ _ (by simp) (by simp), by decide⟩

theorem witness_CounterOriginIsInvisible : (machine (late 300) [] [.service]).Inv ∧
    resetsNext (machine (late 300) [] [.service]) = false := ⟨inv_late (by decide) _ late_300, by decide⟩

/-- COUNT at the counts a bound of 3 admits from a lateness of 1, and one too many; TICKS with an expiry pending. -/
theorem witness_HarnessDirectives : let s := { machine (late 1) [] [] with params := { Params.spec with latencyBound := some 3 } }
    directiveTurns (.count 2) s = some [.count, .count] ∧ directiveTurns (.count 3) s = none ∧
      directiveTurns (.ticks (0 + 1)) s = some [.service] := by decide

theorem witness_TicksDirectiveTakesEveryExpiry : (machine failed [] []).Inv ∧
    (let s := machine (late 999) [] [];
      s.Inv ∧ s.blk.state = .running ∧ s.params.rearmMayFail = false ∧ s.blk.elapsed < s.blk.period) :=
  ⟨inv_failed _, inv_late (by decide) _ late_999, by decide, by decide, by decide⟩

end Sys2Proof.Tests
end

/-! SUPPORT. Where a step can stop, and where it cannot: the decoder, the instructions and the turns, each shown to answer. -/

namespace Sys2Proof

/-- The caller's decoder finds every framed word legal or illegal (30_encoding.md R93, R96). -/
theorem decodeExternal_ne_notACommand (w : Word) (operand : List Byte) : decodeExternal w operand ≠ .notACommand := by
  unfold decodeExternal
  split
  · split
    · unfold operation; split_ifs <;> simp
    · simp
  · simp

theorem decodeInternal_ne_notACommand (w : Word) : decodeInternal w ≠ .notACommand := by
  unfold decodeInternal; split <;> simp

/-- Whoever issues them, the decoder refuses exactly the bytes that are not framed (30_encoding.md R88). -/
theorem decode_eq_notACommand_iff (who : Issuer) (bytes : List Byte) :
    decode who bytes = .notACommand ↔ isCommand bytes = false := by
  unfold decode isCommand
  cases splitCommand bytes with
  | none => simp
  | some c =>
    cases who with
    | caller => simpa using decodeExternal_ne_notACommand c.1 c.2
    | alarm => simpa using decodeInternal_ne_notACommand c.1

namespace Machine

/-- No well-formed instruction stops the machine, whatever state it runs in: the block raises no trap (00_scope.md R13). -/
theorem exec_answers {i : Instr} (h : wellFormed i = true) (s : State) : ∃ t, exec i s = .next t := by
  cases i with
  | init ctx freq => exact ⟨_, exec_init ctx freq s⟩
  | tick => exact ⟨_, rfl⟩
  | enq ctx len payload => exact ⟨_, exec_enq (by simpa [wellFormed] using h) s⟩
  | deq ctx => exact ⟨_, exec_deq ctx s⟩
  | take ctx sel => exact ⟨_, exec_take ctx sel s⟩
  | rdstat ctx => exact ⟨_, exec_rdstat ctx s⟩
  | rddrop ctx => exact ⟨_, exec_rddrop ctx s⟩

/-- The block answers every framed transaction of a caller, a legal one and an illegal one (30_encoding.md R93). -/
theorem runCommand_caller_answers {bytes : List Byte} (h : isCommand bytes = true) (s : State) :
    ∃ t, runCommand .caller bytes s = .next t := by
  unfold runCommand
  cases hd : decode .caller bytes with
  | instr i => exact exec_answers (decode_caller_instr hd).2 s
  | illegal => exact ⟨_, rfl⟩
  | notACommand => simp [(decode_eq_notACommand_iff .caller bytes).mp hd] at h

/-- A caller's turn answers when every port holds a command. -/
theorem serveCaller_answers {s : State} (h : ∀ c ∈ s.callers, isCommand c.cmd = true) (n : Nat) :
    ∃ t, serveCaller n s = .next t := by
  unfold serveCaller
  cases ho : outstanding s.callers n with
  | none => exact ⟨_, rfl⟩
  | some bytes =>
    obtain ⟨c, hc, -, rfl⟩ := outstanding_mem ho
    obtain ⟨u, hu⟩ := runCommand_caller_answers (h c hc) s
    exact ⟨deliver n u, by simp [hu, deliverOutcome]⟩

/-- The transcriber passes a command on and refuses all other bytes (30_encoding.md R88). -/
theorem issueCommand_answers_or_refuses (n : Nat) (bytes : List Byte) (s : State) :
    (∃ t, issueCommand n bytes s = .next t) ∨
      isCommand bytes = false ∧ issueCommand n bytes s = .refused .notACommand := by
  unfold issueCommand
  cases hc : isCommand bytes with
  | true => exact .inl ⟨_, rfl⟩
  | false => exact .inr ⟨rfl, rfl⟩

/-- Among all turns only an issue can stop, and only on bytes that are no command. -/
theorem runTurn_answers_or_refuses_issue {s : State} (h : ∀ c ∈ s.callers, isCommand c.cmd = true) (turn : Turn) :
    (∃ t, runTurn turn s = .next t) ∨
      ∃ n bytes, turn = .issue n bytes ∧ isCommand bytes = false ∧ runTurn turn s = .refused .notACommand := by
  cases turn with
  | count => exact .inl ⟨_, rfl⟩
  | service =>
    rw [runTurn_service]
    exact .inl (exec_answers rfl s)
  | issue n bytes =>
    rcases issueCommand_answers_or_refuses n bytes s with hn | ⟨hc, hr⟩
    · exact .inl hn
    · exact .inr ⟨n, bytes, rfl, hc, hr⟩
  | serve n => exact .inl (serveCaller_answers h n)
  | ready level => exact .inl ⟨_, rfl⟩
  | reset draw => exact .inl ⟨_, rfl⟩

/-- Settles O53: by the turn that comes next; the invariant says that the ports hold commands. -/
theorem onlyTheTranscriberStops : Obligations.OnlyTheTranscriberStops := by
  unfold Obligations.OnlyTheTranscriberStops
  intro s hinv
  have hports : ∀ c ∈ (beginTurn s).callers, isCommand c.cmd = true := by simpa using hinv.commands
  exact runTurn_answers_or_refuses_issue hports (turnOf s)

end Machine
end Sys2Proof

/-! SUPPORT. The invariant of 10_state.md R40: every way a step can change the block keeps it, and so does every way it can
change the ports; and the access table of R39, field by field. -/

namespace Sys2Proof.Machine

/-! ## What a timer count leaves alone (41_tick.md R130) -/

section TimerCount

variable (p : Params) (b : Block)

@[simp] theorem timerCount_state : (timerCount p b).state = b.state := by unfold timerCount; split_ifs <;> rfl
@[simp] theorem timerCount_err : (timerCount p b).err = b.err := by unfold timerCount; split_ifs <;> rfl
@[simp] theorem timerCount_period : (timerCount p b).period = b.period := by unfold timerCount; split_ifs <;> rfl
@[simp] theorem timerCount_now : (timerCount p b).now = wrapTimer p (b.now + 1) := by unfold timerCount; split_ifs <;> rfl
@[simp] theorem timerCount_deadline : (timerCount p b).deadline = b.deadline := by unfold timerCount; split_ifs <;> rfl
@[simp] theorem timerCount_cnt10 : (timerCount p b).cnt10 = b.cnt10 := by unfold timerCount; split_ifs <;> rfl
@[simp] theorem timerCount_cnt100 : (timerCount p b).cnt100 = b.cnt100 := by unfold timerCount; split_ifs <;> rfl
@[simp] theorem timerCount_queue : (timerCount p b).queue = b.queue := by unfold timerCount; split_ifs <;> rfl
@[simp] theorem timerCount_drop : (timerCount p b).drop = b.drop := by unfold timerCount; split_ifs <;> rfl

@[simp] theorem timerCount_sig (k : Signal) : (timerCount p b).sig k = b.sig k := by
  unfold timerCount; split_ifs <;> cases k <;> rfl

end TimerCount

/-! ## What a service writes (41_tick.md R134), field by field -/

section Service

variable (p : Params) (d : Bool) (b : Block)

@[simp] theorem serviceBlock_period : (serviceBlock p d b).period = b.period := by
  obtain ⟨h, -⟩ := rearm_frame p d (beforeRearm p b)
  obtain ⟨-, -, h', -⟩ := beforeRearm_frame p b
  exact h.trans h'

@[simp] theorem serviceBlock_now : (serviceBlock p d b).now = b.now := by
  obtain ⟨-, h, -⟩ := rearm_frame p d (beforeRearm p b)
  obtain ⟨-, -, -, h', -⟩ := beforeRearm_frame p b
  exact h.trans h'

@[simp] theorem serviceBlock_tickPending : (serviceBlock p d b).tickPending = false := by
  obtain ⟨-, -, h, -⟩ := rearm_frame p d (beforeRearm p b)
  obtain ⟨-, -, -, -, -, h', -⟩ := beforeRearm_frame p b
  exact h.trans h'

@[simp] theorem serviceBlock_elapsed : (serviceBlock p d b).elapsed = 0 := by
  obtain ⟨-, -, -, h, -⟩ := rearm_frame p d (beforeRearm p b)
  exact h

@[simp] theorem serviceBlock_cnt10 :
    (serviceBlock p d b).cnt10 = if b.cnt10 + 1 = p.divA then 0 else b.cnt10 + 1 := by
  obtain ⟨-, -, -, -, h, -⟩ := rearm_frame p d (beforeRearm p b)
  exact h.trans (beforeRearm_cnt10 p b)

@[simp] theorem serviceBlock_cnt100 :
    (serviceBlock p d b).cnt100 = if b.cnt100 + 1 = p.divB then 0 else b.cnt100 + 1 := by
  obtain ⟨-, -, -, -, -, h, -⟩ := rearm_frame p d (beforeRearm p b)
  exact h.trans (beforeRearm_cnt100 p b)

theorem serviceBlock_sig (k : Signal) : (serviceBlock p d b).sig k =
    if k = .base ∨ (k = .d10 ∧ b.cnt10 + 1 = p.divA) ∨ (k = .d100 ∧ b.cnt100 + 1 = p.divB) then
      satInc (b.sig k) p.sigLimit
    else b.sig k := by
  obtain ⟨-, -, -, -, -, -, h, -⟩ := rearm_frame p d (beforeRearm p b)
  exact (h k).trans (beforeRearm_sig p b k)

@[simp] theorem serviceBlock_queue : (serviceBlock p d b).queue = b.queue := by
  obtain ⟨-, -, -, -, -, -, -, h, -⟩ := rearm_frame p d (beforeRearm p b)
  obtain ⟨-, -, -, -, -, -, -, h', -⟩ := beforeRearm_frame p b
  exact h.trans h'

@[simp] theorem serviceBlock_drop : (serviceBlock p d b).drop = b.drop := by
  obtain ⟨-, -, -, -, -, -, -, -, h⟩ := rearm_frame p d (beforeRearm p b)
  obtain ⟨-, -, -, -, -, -, -, -, h'⟩ := beforeRearm_frame p b
  exact h.trans h'

/-- The three ends of a service: late, refused by the device, or armed again one period after the old alarm
(41_tick.md R138, R139, R140). -/
theorem serviceBlock_cases :
    (b.period ≤ b.elapsed ∧ (serviceBlock p d b).state = .halted ∧ (serviceBlock p d b).err = .rearmLate ∧
        (serviceBlock p d b).deadline = b.deadline) ∨
      (b.elapsed < b.period ∧ d = true ∧ (serviceBlock p d b).state = .halted ∧
        (serviceBlock p d b).err = .rearmDevice ∧ (serviceBlock p d b).deadline = b.deadline) ∨
      (b.elapsed < b.period ∧ d = false ∧ (serviceBlock p d b).state = b.state ∧ (serviceBlock p d b).err = b.err ∧
        (serviceBlock p d b).deadline = wrapTimer p (b.deadline + b.period)) := by
  obtain ⟨hstate, herr, hperiod, -, hdeadline, -, helapsed, -⟩ := beforeRearm_frame p b
  have h := rearm_cases p d (beforeRearm p b)
  rw [hperiod, helapsed, hdeadline] at h
  rw [serviceBlock_eq]
  rcases h with ⟨hl, e⟩ | ⟨hl, hd, e⟩ | ⟨hl, hd, e⟩
  · exact .inl ⟨hl, by simp [e]⟩
  · exact .inr (.inl ⟨hl, hd, by simp [e]⟩)
  · exact .inr (.inr ⟨hl, hd, by simp [e, hstate, herr]⟩)

end Service

/-! ## What INIT leaves alone in the signals (40_initialize.md R116) -/

@[simp] theorem failConfig_sig (cause : ErrCode) (b : Block) (k : Signal) : (failConfig cause b).sig k = b.sig k := by
  cases k <;> rfl

@[simp] theorem startTimer_sig (p : Params) (n : Nat) (b : Block) (k : Signal) : (startTimer p n b).sig k = b.sig k := by
  cases k <;> rfl

@[simp] theorem blockReset_sig (draw : Nat) (k : Signal) : (Block.reset draw).sig k = 0 := by cases k <;> rfl

/-! ## Each write of the block keeps its invariant (10_state.md R40) -/

theorem Params.ratios_pos {p : Params} (h : p.wf = true) : 1 ≤ p.divA ∧ 1 ≤ p.divB := by
  simp only [Params.wf, Bool.and_eq_true, decide_eq_true_eq] at h
  omega

section KeepsInv

variable {p : Params} {b : Block}

theorem Block.Inv.not_pending_of_uninit (h : b.Inv p) (hu : b.state = .uninit) : b.tickPending = false := by
  by_contra hp
  have hr := h.pendingRunning (by simpa using hp)
  simp [hu] at hr

/-- Reset (70_reset_and_hazards.md R240). -/
theorem blockReset_inv (hp : p.wf = true) (draw : Nat) : (Block.reset (wrapTimer p draw)).Inv p := by
  obtain ⟨hA, hB⟩ := Params.ratios_pos hp
  exact
    { queueBound := Nat.zero_le _
      recordSize := by simp
      cnt10Range := hA
      cnt100Range := hB
      sigRange := by simp
      periodRange := Nat.zero_le _
      periodPositive := by simp
      nowRange := wrapTimer_le p draw
      deadlineRange := Nat.zero_le _
      elapsedRange := Nat.zero_le _
      pendingRunning := by simp
      elapsedZero := by simp
      lateness := by simp
      cause := rfl
      uninitZero := by simp }

/-- While an expiry pends the counter runs away from the alarm as `elapsed` does (41_tick.md R132); the expiry itself is the
count that reaches the alarm (R131). -/
theorem timerCount_inv (h : b.Inv p) : (timerCount p b).Inv p := by
  have hnow := wrapTimer_le p (b.now + 1)
  rcases timerCount_cases p b with ⟨hp, e⟩ | ⟨hp, hr, hd, e⟩ | ⟨hp, -, e⟩ <;> rw [e]
  · exact
      { h with
        nowRange := hnow
        elapsedRange := Nat.min_le_right _ _
        elapsedZero := fun hn => by simp [hp] at hn
        lateness := fun _ hl => by
          have hlt : b.elapsed < timerTop p := by simp only at hl; omega
          have hmin : min (b.elapsed + 1) (timerTop p) = b.elapsed + 1 := by omega
          simp only [hmin]
          rw [h.lateness hp hlt, wrapTimer_wrapTimer_add, Nat.add_assoc] }
  · exact
      { h with
        nowRange := hnow
        elapsedRange := Nat.zero_le _
        pendingRunning := fun _ => hr
        elapsedZero := fun _ => rfl
        lateness := fun _ _ => by simpa [hd] using (wrapTimer_of_le h.deadlineRange).symm }
  · exact
      { h with
        nowRange := hnow
        lateness := fun hn => by simp [hp] at hn }

/-- A service runs only in RUNNING; it stays there or halts with its cause (41_tick.md R134, R140). -/
theorem serviceBlock_inv (hp : p.wf = true) (h : b.Inv p) (hpend : b.tickPending = true) (d : Bool) :
    (serviceBlock p d b).Inv p := by
  obtain ⟨hA, hB⟩ := Params.ratios_pos hp
  have hrun : b.state = .running := h.pendingRunning hpend
  have herr : b.err = .none := by simpa [Block.causeFits, hrun] using h.cause
  have hgen : (serviceBlock p d b).state ≠ .uninit ∧ (serviceBlock p d b).causeFits ∧
      (serviceBlock p d b).deadline ≤ timerTop p := by
    unfold Block.causeFits
    rcases serviceBlock_cases p d b with ⟨-, hs, he, hd⟩ | ⟨-, -, hs, he, hd⟩ | ⟨-, -, hs, he, hd⟩
    · simp [hs, he, hd, h.deadlineRange]
    · simp [hs, he, hd, h.deadlineRange]
    · simp [hs, he, hd, hrun, herr, wrapTimer_le]
  obtain ⟨hinit, hcause, hdeadline⟩ := hgen
  have h10 := h.cnt10Range
  have h100 := h.cnt100Range
  exact
    { queueBound := by simpa using h.queueBound
      recordSize := by simpa using h.recordSize
      cnt10Range := by rw [serviceBlock_cnt10]; split <;> omega
      cnt100Range := by rw [serviceBlock_cnt100]; split <;> omega
      sigRange := fun k => by
        rw [serviceBlock_sig]; split
        · exact satInc_le (h.sigRange k)
        · exact h.sigRange k
      periodRange := by simpa using h.periodRange
      periodPositive := fun _ => by simpa using h.periodPositive hrun
      nowRange := by simpa using h.nowRange
      deadlineRange := hdeadline
      elapsedRange := by simp
      pendingRunning := by simp
      elapsedZero := by simp
      lateness := by simp
      cause := hcause
      uninitZero := fun hu => absurd hu hinit }

/-- A configuration error (40_initialize.md R112, R115). -/
theorem failConfig_inv (h : b.Inv p) (hu : b.state = .uninit) {cause : ErrCode}
    (hc : cause = .deviceNotReady ∨ cause = .rateZero ∨ cause = .rateOverflow) : (failConfig cause b).Inv p :=
  { h with
    sigRange := by simpa using h.sigRange
    periodPositive := by simp
    pendingRunning := by simp [h.not_pending_of_uninit hu]
    cause := hc
    uninitZero := by simp }

/-- A successful INIT (40_initialize.md R112). -/
theorem startTimer_inv (h : b.Inv p) (hu : b.state = .uninit) {period : Nat} (h1 : 1 ≤ period)
    (h2 : period ≤ timerTop p) : (startTimer p period b).Inv p :=
  { h with
    sigRange := by simpa using h.sigRange
    periodRange := h2
    periodPositive := fun _ => h1
    deadlineRange := wrapTimer_le p _
    elapsedRange := Nat.zero_le _
    pendingRunning := by simp
    elapsedZero := by simp
    lateness := by simp
    cause := by simpa [Block.causeFits, hu] using h.cause
    uninitZero := by simp }

/-- Nothing bounds the drop counter but its width (10_state.md R32). -/
theorem Block.Inv.with_drop (h : b.Inv p) (n : BitVec 32) : Block.Inv p { b with drop := n } := { h with }

/-- The queue may become any list of records within QCAP (10_state.md R31). -/
theorem Block.Inv.with_queue (h : b.Inv p) {q : List (List Byte)} (hq : q.length ≤ p.qcap)
    (hr : ∀ r ∈ q, r.length = p.recBytes) : Block.Inv p { b with queue := q } :=
  { h with queueBound := hq, recordSize := hr }

/-- A signal may always become smaller (10_state.md R30). -/
theorem setSig_inv (h : b.Inv p) {k : Signal} {v : Nat} (hv : v ≤ b.sig k) : (b.setSig k v).Inv p := by
  have hle : ∀ j, (b.setSig k v).sig j ≤ b.sig j := by
    intro j; rw [setSig_sig]; split <;> simp_all
  have hrange := fun j => (hle j).trans (h.sigRange j)
  have hzero : b.state = .uninit → b.period = 0 ∧ b.cnt10 = 0 ∧ b.cnt100 = 0 ∧ ∀ j, (b.setSig k v).sig j = 0 := by
    intro hu
    obtain ⟨hp, h10, h100, hs⟩ := h.uninitZero hu
    exact ⟨hp, h10, h100, fun j => Nat.le_zero.mp (hs j ▸ hle j)⟩
  cases k <;> exact { h with sigRange := hrange, uninitZero := hzero }

end KeepsInv

/-- Whatever a step does to the block, it keeps the block's invariant. -/
theorem BlockChange.inv {s : State} {b : Block} (hs : s.Inv) (h : BlockChange s b) : b.Inv s.params := by
  have hb := hs.block
  cases h with
  | same => exact hb
  | counted _ => exact timerCount_inv hb
  | serviced d hn _ =>
    have hpend : s.blk.tickPending = true := by
      simp only [servicesNext, Bool.and_eq_true] at hn
      exact hn.2
    exact serviceBlock_inv hs.params hb hpend d
  | failed n c f cause _ hu hc => exact failConfig_inv hb hu hc
  | started n c f period _ hu h1 h2 => exact startTimer_inv hb hu h1 h2
  | dropped n c l bytes _ _ => exact hb.with_drop _
  | appended n c l bytes r _ hfull hr =>
    have hlen := hb.queueBound
    refine hb.with_queue (by simp; omega) fun x hx => ?_
    rcases List.mem_append.mp hx with hx | hx
    · exact hb.recordSize x hx
    · rw [List.mem_singleton.mp hx, hr]
  | removed n c r rest _ hq =>
    have hlen := hb.queueBound
    have hrec := hb.recordSize
    rw [hq] at hlen hrec
    exact hb.with_queue (Nat.le_of_succ_le hlen) fun x hx => hrec x (List.mem_cons_of_mem r hx)
  | taken n c k _ _ => exact setSig_inv hb (Nat.sub_le _ _)
  | reset draw _ => exact blockReset_inv hs.params draw

/-! ## What a step does to the ports (30_encoding.md R80) -/

/-- An instruction writes the block, the draws and the response, and nothing else of the machine. -/
theorem exec_frame {i : Instr} {s t : State} (h : exec i s = .next t) :
    t.params = s.params ∧ t.deviceReady = s.deviceReady ∧ t.callers = s.callers ∧ t.agenda = s.agenda ∧
      t.answers = s.answers := by
  cases i with
  | init c f =>
    rw [exec_init] at h
    obtain rfl := Host.Outcome.next.inj h
    rcases checkCtx_cases (.init c f) (configure f) s with ⟨_, e⟩ | ⟨_, e⟩ <;> rw [e]
    · rcases configure_cases f s with ⟨_, e⟩ | ⟨_, _, e⟩ | ⟨_, _, _, e⟩ | ⟨_, _, _, e⟩ | ⟨_, _, _, _, e⟩ <;> simp [e]
    · simp
  | tick =>
    by_cases hp : s.blk.tickPending = true
    · rw [exec_tick_pending hp] at h
      obtain rfl := Host.Outcome.next.inj h
      simp
    · rw [exec_tick_idle (by simpa using hp)] at h
      obtain rfl := Host.Outcome.next.inj h
      simp
  | enq c l bytes =>
    by_cases hl : bytes.length = l.toNat
    · rw [exec_enq hl] at h
      obtain rfl := Host.Outcome.next.inj h
      rcases enqueue_cases l.toNat bytes s with ⟨_, e⟩ | ⟨_, e⟩ <;> simp [e]
    · simp [exec, execEnq, hl] at h
  | deq c =>
    rw [exec_deq] at h
    obtain rfl := Host.Outcome.next.inj h
    rcases checkCtx_cases (.deq c) dequeue s with ⟨_, e⟩ | ⟨_, e⟩ <;> rw [e]
    · rcases dequeue_cases s with ⟨_, e⟩ | ⟨r, rest, _, e⟩ <;> simp [e]
    · simp
  | take c k =>
    rw [exec_take] at h
    obtain rfl := Host.Outcome.next.inj h
    rcases checkCtx_cases (.take c k) (takeSignal k) s with ⟨_, e⟩ | ⟨_, e⟩ <;> rw [e]
    · rcases takeSignal_cases k s with ⟨_, e⟩ | ⟨_, e⟩ <;> simp [e]
    · simp
  | rdstat c => rw [exec_rdstat] at h; obtain rfl := Host.Outcome.next.inj h; simp
  | rddrop c => rw [exec_rddrop] at h; obtain rfl := Host.Outcome.next.inj h; simp

theorem runCommand_callers {who : Issuer} {bytes : List Byte} {s t : State} (h : runCommand who bytes s = .next t) :
    t.callers = s.callers := by
  rcases runCommand_cases h with ⟨i, -, hx⟩ | ⟨-, rfl⟩
  · obtain ⟨-, -, hc, -⟩ := exec_frame hx
    exact hc
  · simp

/-- The ways a step can change the ports: a caller with none outstanding issues a command, an answered command leaves, a reset
clears them all. -/
inductive PortsChange (callers : List Port) : List Port → Prop where
  | same : PortsChange callers callers
  | issued (n : Nat) (bytes : List Byte) : isCommand bytes = true → outstanding callers n = none →
      PortsChange callers (callers ++ [{ caller := n, cmd := bytes }])
  | answered (n : Nat) : PortsChange callers (withoutCaller callers n)
  | cleared : PortsChange callers []

theorem step_ports_change {s t : State} (h : step s = .next t) : PortsChange s.callers t.callers := by
  rcases step_cases h with ⟨_, rfl⟩ | ⟨_, hx⟩ | ⟨n, b, _, hb, ⟨_, rfl⟩ | ⟨ho, rfl⟩⟩ | ⟨n, _, ⟨_, rfl⟩ | ⟨b, _, u, hr, rfl⟩⟩ |
    ⟨l, _, rfl⟩ | ⟨d, _, rfl⟩
  · simpa using PortsChange.same
  · obtain ⟨-, -, hc, -⟩ := exec_frame hx
    simpa [hc] using PortsChange.same
  · simpa using PortsChange.same
  · exact .issued n b hb ho
  · simpa using PortsChange.same
  · have hc : u.callers = s.callers := by simpa using runCommand_callers hr
    rcases deliver_cases n u with ⟨_, e⟩ | ⟨r, _, e⟩ <;> rw [e]
    · simpa [hc] using PortsChange.same
    · simpa [hc] using PortsChange.answered n
  · simpa using PortsChange.same
  · simpa using PortsChange.cleared

/-- The ports go on holding commands, one for each caller (30_encoding.md R80, R88). -/
theorem PortsChange.inv {callers callers' : List Port} (h : PortsChange callers callers')
    (hc : ∀ c ∈ callers, isCommand c.cmd = true) (hn : (callers.map Port.caller).Nodup) :
    (∀ c ∈ callers', isCommand c.cmd = true) ∧ (callers'.map Port.caller).Nodup := by
  cases h with
  | same => exact ⟨hc, hn⟩
  | issued n bytes hb ho =>
    have hfresh := outstanding_eq_none.mp ho
    refine ⟨fun c hm => ?_, ?_⟩
    · rcases List.mem_append.mp hm with hm | hm
      · exact hc c hm
      · rw [List.mem_singleton.mp hm]; exact hb
    · simpa using hn.concat hfresh
  | answered n =>
    have hsub : (withoutCaller callers n).Sublist callers := List.filter_sublist
    exact ⟨fun c hm => hc c (hsub.subset hm), hn.sublist (hsub.map Port.caller)⟩
  | cleared => simp

/-- Settles O49: the step's change of the block and its change of the ports each keep their part of the invariant. -/
theorem stepKeepsInvariant : Obligations.StepKeepsInvariant := by
  unfold Obligations.StepKeepsInvariant
  intro s t hs h
  obtain ⟨hparams, hblock⟩ := step_block_change h
  obtain ⟨hcommands, honeEach⟩ := (step_ports_change h).inv hs.commands hs.oneEach
  exact ⟨hparams ▸ hs.params, hparams ▸ hblock.inv hs, hcommands, honeEach⟩

theorem resetWith_inv {p : Params} (hp : p.wf = true) (draw : Nat) (ready : Bool) (agenda : List Turn) :
    (State.resetWith p draw ready agenda).Inv :=
  ⟨hp, blockReset_inv hp draw, by simp [State.resetWith], by simp [State.resetWith]⟩

/-- Settles O50: reset puts every field at a value the invariant admits, under any legal parameters. -/
theorem resetMeetsInvariant : Obligations.ResetMeetsInvariant := by
  unfold Obligations.ResetMeetsInvariant
  exact ⟨fun p draw ready agenda hp => resetWith_inv hp draw ready agenda, resetWith_inv (by decide) 0 true []⟩

/-! ## The access table (10_state.md R39): which change of the block writes which field -/

theorem turn_not_reset {s : State} (h : resetsNext s = false) (draw : Nat) : turnOf s ≠ .reset draw := by
  intro ht
  simp [resetsNext, ht] at h

section AccessTable

variable {s : State} {b : Block} (h : BlockChange s b) (hr : ∀ draw, turnOf s ≠ .reset draw)
include h hr

theorem BlockChange.now_written (hw : b.now ≠ s.blk.now) : countsNext s = true := by
  cases h with
  | counted hc => exact hc
  | reset draw ht => exact absurd ht (hr draw)
  | _ => simp at hw

theorem BlockChange.dividers_written (hw : b.cnt10 ≠ s.blk.cnt10 ∨ b.cnt100 ≠ s.blk.cnt100) :
    servicesNext s = true := by
  cases h with
  | serviced d hn _ => exact hn
  | reset draw ht => exact absurd ht (hr draw)
  | _ => simp at hw

theorem BlockChange.period_written (hw : b.period ≠ s.blk.period) : ∃ n c f, instrNext s = some (n, .init c f) := by
  cases h with
  | started n c f period hi => exact ⟨some n, c, f, hi⟩
  | reset draw ht => exact absurd ht (hr draw)
  | _ => simp at hw

theorem BlockChange.generator_written
    (hw : b.deadline ≠ s.blk.deadline ∨ b.state ≠ s.blk.state ∨ b.err ≠ s.blk.err) :
    servicesNext s = true ∨ ∃ n c f, instrNext s = some (n, .init c f) := by
  cases h with
  | serviced d hn _ => exact .inl hn
  | failed n c f cause hi => exact .inr ⟨some n, c, f, hi⟩
  | started n c f period hi => exact .inr ⟨some n, c, f, hi⟩
  | reset draw ht => exact absurd ht (hr draw)
  | _ => simp at hw

theorem BlockChange.pending_written (hw : b.tickPending ≠ s.blk.tickPending ∨ b.elapsed ≠ s.blk.elapsed) :
    countsNext s = true ∨ servicesNext s = true ∨ ∃ n c f, instrNext s = some (n, .init c f) := by
  cases h with
  | counted hc => exact .inl hc
  | serviced d hn _ => exact .inr (.inl hn)
  | started n c f period hi => exact .inr (.inr ⟨some n, c, f, hi⟩)
  | reset draw ht => exact absurd ht (hr draw)
  | _ => simp at hw

/-- An INIT that succeeds finds an UNINIT block, whose pending bit and `elapsed` are 0 already. -/
theorem BlockChange.pending_written_of_inv (hs : s.Inv)
    (hw : b.tickPending ≠ s.blk.tickPending ∨ b.elapsed ≠ s.blk.elapsed) :
    countsNext s = true ∨ servicesNext s = true := by
  cases h with
  | counted hc => exact .inl hc
  | serviced d hn _ => exact .inr hn
  | started n c f period _ hu =>
    have hp := hs.block.not_pending_of_uninit hu
    simp [hp, hs.block.elapsedZero hp] at hw
  | reset draw ht => exact absurd ht (hr draw)
  | _ => simp at hw

theorem BlockChange.signal_written (k : Signal) (hw : b.sig k ≠ s.blk.sig k) :
    servicesNext s = true ∨ ∃ n c, instrNext s = some (n, .take c k) := by
  cases h with
  | serviced d hn _ => exact .inl hn
  | taken n c j hi =>
    rw [setSig_sig] at hw
    obtain rfl : k = j := by by_contra hk; simp [hk] at hw
    exact .inr ⟨some n, c, hi⟩
  | reset draw ht => exact absurd ht (hr draw)
  | same | counted | failed | started => simp at hw
  | dropped | appended | removed => cases k <;> exact absurd rfl hw

theorem BlockChange.queue_written (hw : b.queue ≠ s.blk.queue) :
    (∃ n c l bytes, instrNext s = some (n, .enq c l bytes)) ∨ ∃ n c, instrNext s = some (n, .deq c) := by
  cases h with
  | appended n c l bytes r hi => exact .inl ⟨some n, c, l, bytes, hi⟩
  | removed n c r rest hi => exact .inr ⟨some n, c, hi⟩
  | reset draw ht => exact absurd ht (hr draw)
  | _ => simp at hw

theorem BlockChange.drop_written (hw : b.drop ≠ s.blk.drop) : ∃ n c l bytes, instrNext s = some (n, .enq c l bytes) := by
  cases h with
  | dropped n c l bytes hi => exact ⟨some n, c, l, bytes, hi⟩
  | reset draw ht => exact absurd ht (hr draw)
  | _ => simp at hw

end AccessTable

/-- Settles O52: the step changes the block in one of the ways of `BlockChange`, and each field is written by the ones its row
names. -/
theorem fieldsWrittenOnlyAsTabled : Obligations.FieldsWrittenOnlyAsTabled := by
  unfold Obligations.FieldsWrittenOnlyAsTabled
  intro s t h
  obtain ⟨hparams, hb⟩ := step_block_change h
  refine ⟨hparams, fun hreset => ?_⟩
  have hr := turn_not_reset hreset
  exact ⟨hb.now_written hr, hb.dividers_written hr, hb.period_written hr, hb.generator_written hr, hb.pending_written hr,
    hb.pending_written_of_inv hr, hb.signal_written hr, hb.queue_written hr, hb.drop_written hr⟩

/-! ## The environment's turns (30_encoding.md sections 1 and 6) -/

/-- Issuing a command touches the ports alone, and only those of a caller with none outstanding (30_encoding.md R80). -/
theorem issueCommand_of_isCommand {bytes : List Byte} (hc : isCommand bytes = true) (n : Nat) (s : State) :
    issueCommand n bytes s = .next (if outstanding s.callers n = none
      then { s with callers := s.callers ++ [⟨n, bytes⟩] } else s) := by
  unfold issueCommand
  rw [if_pos hc]
  cases outstanding s.callers n with
  | none => rfl
  | some cmd => rfl

theorem splitCommand_encode : ∀ {i : Instr}, wellFormed i = true →
    splitCommand (encode i) = some (encodeWord i, encodeOperand i)
  | .init ctx freq => Laws.Framed.init ctx freq
  | .tick => Laws.Framed.tick
  | .enq ctx len payload => Laws.Framed.enq ctx len payload
  | .deq ctx => Laws.Framed.deq ctx
  | .take ctx sel => Laws.Framed.take ctx sel
  | .rdstat ctx => Laws.Framed.rdstat ctx
  | .rddrop ctx => Laws.Framed.rddrop ctx

theorem isCommand_encode {i : Instr} (h : wellFormed i = true) : isCommand (encode i) = true := by
  rw [isCommand, splitCommand_encode h]; rfl

/-- A word with operands is a command exactly if they are as many as it declares (30_encoding.md R88). -/
theorem isCommand_wordBytes_append_iff (w : Word) (operand : List Byte) :
    isCommand (wordBytes w ++ operand) = true ↔ operand.length = operandBytes w := by
  constructor
  · intro h
    obtain ⟨⟨v, rest⟩, hs⟩ := Option.isSome_iff_exists.mp h
    obtain ⟨he, hl⟩ := splitCommand_some hs
    obtain ⟨hw, rfl⟩ := List.append_inj he rfl
    obtain rfl : w = v := by rw [← firstWord_wordBytes w, hw, firstWord_wordBytes]
    exact hl
  · intro h
    rw [isCommand, splitCommand_wordBytes w operand h]; rfl

/-- Settles O12: an issue and a READY turn by what they run, and taking a turn by its frame. -/
theorem environmentTurnsTouchNoBlockState : Obligations.EnvironmentTurnsTouchNoBlockState := by
  unfold Obligations.EnvironmentTurnsTouchNoBlockState
  refine ⟨fun s n bytes ht hc => ?_, fun i => isCommand_encode, isCommand_wordBytes_append_iff, fun s level ht => ?_,
    fun s => by simp⟩
  · rw [step, ht]
    have h := issueCommand_of_isCommand hc n (beginTurn s)
    rwa [beginTurn_callers] at h
  · rw [step, ht]; rfl

end Sys2Proof.Machine

/-! SUPPORT. What a caller's bytes decode from, what an instruction answers, and the path of a record through the queue: every
step but a reset passes records on from the ENQs it accepts to the DEQs it answers (20_memory.md R68). -/

namespace Sys2Proof

/-! ## The decoder's inverse (30_encoding.md R93): a legal command's bytes are the encoding of what it decodes to -/

/-- A legal word leaves at 0 the fields that its operation does not use (30_encoding.md R95). -/
theorem legalWord_unused_fields {w : Word} (h : legalWord w = true) :
    rsvField w = 0 ∧ (opField w ≠ 0x5 → selField w = 0b00) ∧ (opField w ≠ 0x3 → lenField w = 0) := by
  simp only [legalWord, Bool.and_eq_true, Bool.not_eq_true', Bool.and_eq_false_iff, bne_eq_false_iff_eq,
    decide_eq_false_iff_not] at h
  obtain ⟨⟨⟨⟨⟨-, -⟩, hrsv⟩, hsel⟩, -⟩, hlen⟩ := h
  exact ⟨hrsv, hsel.resolve_left, hlen.resolve_left⟩

/-- What stands behind a decoded command: its word, its operands, the context and signal that the fields name. -/
theorem decode_caller_fields {bytes : List Byte} {i : Instr} (h : decode .caller bytes = .instr i) :
    ∃ w operand ctx sel, bytes = wordBytes w ++ operand ∧ operand.length = operandBytes w ∧ legalWord w = true ∧
      ctxField w = ctxBits ctx ∧ selField w = signalBits sel ∧
      operation (opField w) ctx sel (lenField w) operand = .instr i := by
  unfold decode at h
  split at h
  · simp at h
  · rename_i w operand hs
    obtain ⟨hbytes, hlen⟩ := splitCommand_some hs
    simp only [decodeExternal] at h
    split at h
    · rename_i hlegal
      split at h
      · rename_i ctx sel hctx hsel
        exact ⟨w, operand, ctx, sel, hbytes, hlen, hlegal, ctxOfBits_some hctx, signalOfBits_some hsel, h⟩
      · simp at h
    · simp at h

/-- The operations and their opcodes (30_encoding.md R82). -/
theorem operation_cases {op : BitVec 4} {ctx : Ctx} {sel : Signal} {len : BitVec 16} {operand : List Byte} {i : Instr}
    (h : operation op ctx sel len operand = .instr i) :
    (op = 0x1 ∧ i = .init ctx (firstWord operand)) ∨ (op = 0x3 ∧ i = .enq ctx len operand) ∨ (op = 0x4 ∧ i = .deq ctx) ∨
      (op = 0x5 ∧ i = .take ctx sel) ∨ (op = 0x6 ∧ i = .rdstat ctx) ∨ (op = 0x7 ∧ i = .rddrop ctx) := by
  unfold operation at h
  split_ifs at h <;> simp_all

/-- A word's four bytes give its bytes back (20_memory.md R62). -/
theorem wordBytes_firstWord : ∀ {bytes : List Byte}, bytes.length = 4 → wordBytes (firstWord bytes) = bytes
  | [b0, b1, b2, b3], _ => wordBytes_wordOfBytes b0 b1 b2 b3

/-- No bit of a legal command is ignored: the fields an operation does not use are 0, as `encodeWord` writes them. -/
theorem encode_of_decode_caller {bytes : List Byte} {i : Instr} (h : decode .caller bytes = .instr i) :
    encode i = bytes := by
  obtain ⟨w, operand, ctx, sel, rfl, hoperand, hlegal, hctx, hsel, hi⟩ := decode_caller_fields h
  obtain ⟨hrsv, hsel0, hlen0⟩ := legalWord_unused_fields hlegal
  have hw := commandWord_fields w hrsv
  rw [hctx] at hw
  have hnone : opField w ≠ 0x1 → opField w ≠ 0x3 → operand = [] := fun h1 h3 => by
    rw [operandBytes, if_neg h1, if_neg h3] at hoperand
    exact List.length_eq_zero_iff.mp hoperand
  rcases operation_cases hi with ⟨hop, rfl⟩ | ⟨hop, rfl⟩ | ⟨hop, rfl⟩ | ⟨hop, rfl⟩ | ⟨hop, rfl⟩ | ⟨hop, rfl⟩ <;>
    simp only [hop, ne_eq, not_true_eq_false, BitVec.reduceEq, not_false_eq_true, forall_const] at hw hsel0 hlen0 hnone
  · have hfour : operand.length = 4 := by rw [hoperand, operandBytes, if_pos hop]
    rw [hsel0, hlen0] at hw
    rw [encode, encodeWord, hw, encodeOperand, wordBytes_firstWord hfour]
  · rw [hsel0] at hw
    rw [encode, encodeWord, hw, encodeOperand]
  · rw [hsel0, hlen0] at hw
    rw [encode, encodeWord, hw, encodeOperand, hnone]
  · rw [hsel, hlen0] at hw
    rw [encode, encodeWord, hw, encodeOperand, hnone]
  · rw [hsel0, hlen0] at hw
    rw [encode, encodeWord, hw, encodeOperand, hnone]
  · rw [hsel0, hlen0] at hw
    rw [encode, encodeWord, hw, encodeOperand, hnone]

end Sys2Proof

namespace Sys2Proof.Machine

/-! ## What the queue's records do in one instruction -/

/-- The record that an instruction run in `s` and answered `r` stores: an ENQ's, if it is answered OK (42_queue.md R160). -/
def storedBy (i : Instr) (s : State) (r : Option Response) : Option (List Byte) :=
  match i with
  | .enq _ len payload =>
    if r.map Response.status = some .ok then some (recordOf s.params len.toNat payload s.draws) else none
  | _ => none

/-- What was queued in `s`, then the record stored, is the record that `t` answers with, then what is queued in `t`. -/
def conserves (stored : Option (List Byte)) (s t : State) : Prop :=
  s.blk.queue ++ stored.toList = (t.response.bind Response.data).toList ++ t.blk.queue

/-- Where the queue stays and no record is answered, none may be stored. -/
theorem conserves_of_queue_eq {s t : State} (hq : t.blk.queue = s.blk.queue) (hd : t.response.bind Response.data = none) :
    conserves none s t := by
  simp [conserves, hq, hd]

theorem checkCtx_conserves (i : Instr) {body : State → State} {s : State} (h : conserves none s (body s)) :
    conserves none s (checkCtx i body s) := by
  rcases checkCtx_cases i body s with ⟨_, e⟩ | ⟨_, e⟩ <;> rw [e]
  · exact h
  · exact conserves_of_queue_eq rfl rfl

theorem configure_conserves (freq : Word) (s : State) : conserves none s (configure freq s) := by
  rcases configure_cases freq s with ⟨_, e⟩ | ⟨_, _, e⟩ | ⟨_, _, _, e⟩ | ⟨_, _, _, e⟩ | ⟨_, _, _, _, e⟩ <;> rw [e] <;>
    exact conserves_of_queue_eq rfl rfl

theorem takeSignal_conserves (k : Signal) (s : State) : conserves none s (takeSignal k s) := by
  rcases takeSignal_cases k s with ⟨_, e⟩ | ⟨_, e⟩ <;> rw [e]
  · exact conserves_of_queue_eq rfl rfl
  · exact conserves_of_queue_eq (by simp) rfl

/-- A DEQ answers the head (42_queue.md R165). -/
theorem dequeue_conserves (s : State) : conserves none s (dequeue s) := by
  rcases dequeue_cases s with ⟨_, e⟩ | ⟨r, rest, hq, e⟩ <;> rw [e]
  · exact conserves_of_queue_eq rfl rfl
  · simp [conserves, hq]

/-- An ENQ appends its record and answers OK, or drops it and answers FULL (42_queue.md R160, R161). -/
theorem enqueue_conserves (ctx : Ctx) (len : BitVec 16) (payload : List Byte) (s : State) :
    conserves (storedBy (.enq ctx len payload) s (enqueue len.toNat payload s).response) s
      (enqueue len.toNat payload s) := by
  rcases enqueue_cases len.toNat payload s with ⟨_, e⟩ | ⟨_, e⟩ <;> simp [e, conserves, storedBy]

/-- The tick service answers no caller (60_exceptions.md R213) and leaves the queue alone (42_queue.md R169). -/
theorem exec_tick_frame {s t : State} (h : exec .tick s = .next t) : t.response = none ∧ t.blk.queue = s.blk.queue := by
  by_cases hp : s.blk.tickPending = true
  · rw [exec_tick_pending hp] at h
    obtain rfl := Host.Outcome.next.inj h
    simp
  · rw [exec_tick_idle (by simpa using hp)] at h
    obtain rfl := Host.Outcome.next.inj h
    simp

/-- No instruction loses, doubles or reorders a record. -/
theorem exec_conserves {i : Instr} {s t : State} (h : exec i s = .next t) : conserves (storedBy i s t.response) s t := by
  cases i with
  | init c f =>
    rw [exec_init] at h
    obtain rfl := Host.Outcome.next.inj h
    exact checkCtx_conserves _ (configure_conserves f s)
  | tick =>
    obtain ⟨hn, hq⟩ := exec_tick_frame h
    exact conserves_of_queue_eq hq (by rw [hn]; rfl)
  | enq c l payload =>
    by_cases hl : payload.length = l.toNat
    · rw [exec_enq hl] at h
      obtain rfl := Host.Outcome.next.inj h
      exact enqueue_conserves c l payload s
    · simp [exec, execEnq, hl] at h
  | deq c =>
    rw [exec_deq] at h
    obtain rfl := Host.Outcome.next.inj h
    exact checkCtx_conserves _ (dequeue_conserves s)
  | take c k =>
    rw [exec_take] at h
    obtain rfl := Host.Outcome.next.inj h
    exact checkCtx_conserves _ (takeSignal_conserves k s)
  | rdstat c =>
    rw [exec_rdstat] at h
    obtain rfl := Host.Outcome.next.inj h
    exact conserves_of_queue_eq rfl rfl
  | rddrop c =>
    rw [exec_rddrop] at h
    obtain rfl := Host.Outcome.next.inj h
    exact conserves_of_queue_eq rfl rfl

/-! ## What the queue's records do in one step -/

theorem storesNext_of_instr {s t : State} {c : Option Nat} {i : Instr} (hi : instrNext s = some (c, i))
    (h : step s = .next t) : storesNext s = storedBy i (beginTurn s) t.response := by
  unfold storesNext
  rw [hi, h]
  cases i with
  | enq ctx len payload => simp [storedBy]
  | _ => rfl

theorem storesNext_of_no_instr {s : State} (hi : instrNext s = none) : storesNext s = none := by
  unfold storesNext
  rw [hi]

/-- The queue and the record stored are the record answered and the queue afterwards, whatever the turn but a reset. -/
theorem step_conserves {s t : State} (hr : resetsNext s = false) (h : step s = .next t) :
    conserves (storesNext s) s t := by
  have idle : instrNext s = none → t.blk.queue = s.blk.queue → t.response = none → conserves (storesNext s) s t :=
    fun hi hq hn => by
      rw [storesNext_of_no_instr hi]
      exact conserves_of_queue_eq hq (by rw [hn]; rfl)
  have ran : ∀ {c i u}, instrNext s = some (c, i) → exec i (beginTurn s) = .next u → t.blk = u.blk →
      t.response = u.response → conserves (storesNext s) s t := fun hi hx hb hn => by
    rw [storesNext_of_instr hi h, hn]
    simpa [conserves, hb, hn] using exec_conserves hx
  rcases step_cases h with ⟨ht, rfl⟩ | ⟨ht, hx⟩ | ⟨n, b, ht, _, ⟨_, rfl⟩ | ⟨_, rfl⟩⟩ |
    ⟨n, ht, ⟨ho, rfl⟩ | ⟨b, ho, u, hu, rfl⟩⟩ | ⟨l, ht, rfl⟩ | ⟨d, ht, rfl⟩
  · refine idle (by simp [instrNext, ht]) ?_ (by simp)
    unfold countTurn
    split <;> simp
  · exact ran (c := none) (i := .tick) (by simp [instrNext, ht]) hx rfl rfl
  · exact idle (by simp [instrNext, ht]) (by simp) (by simp)
  · exact idle (by simp [instrNext, ht]) (by simp) (by simp)
  · exact idle (by simp [instrNext, ht, ho]) (by simp) (by simp)
  · rcases runCommand_cases hu with ⟨i, hd, hx⟩ | ⟨hd, rfl⟩
    · exact ran (c := some n) (i := i) (by simp [instrNext, ht, ho, hd]) hx (deliver_blk n u) (deliver_response n u)
    · rw [storesNext_of_no_instr (by simp [instrNext, ht, ho, hd])]
      exact conserves_of_queue_eq (by simp) (by simp)
  · exact idle (by simp [instrNext, ht]) (by simp) (by simp)
  · exact absurd ht (turn_not_reset hr d)

/-! ## The record of responses (log 8) -/

theorem runCommand_answers_kept {who : Issuer} {bytes : List Byte} {s t : State} (h : runCommand who bytes s = .next t) :
    t.answers = s.answers := by
  rcases runCommand_cases h with ⟨i, -, hx⟩ | ⟨-, rfl⟩
  · obtain ⟨-, -, -, -, ha⟩ := exec_frame hx
    exact ha
  · simp

/-- A step that answers puts its response before the earlier ones; a step that does not leaves them. -/
theorem step_answers {s t : State} (h : step s = .next t) :
    (t.response = none ∧ t.answers = s.answers) ∨
      ∃ n r, turnOf s = .serve n ∧ t.response = some r ∧ t.answers = ⟨n, r⟩ :: s.answers := by
  rcases step_cases h with ⟨_, rfl⟩ | ⟨_, hx⟩ | ⟨n, b, _, _, ⟨_, rfl⟩ | ⟨_, rfl⟩⟩ | ⟨n, ht, ⟨_, rfl⟩ | ⟨b, _, u, hu, rfl⟩⟩ |
    ⟨l, _, rfl⟩ | ⟨d, _, rfl⟩
  · simp
  · obtain ⟨-, -, -, -, ha⟩ := exec_frame hx
    obtain ⟨hn, -⟩ := exec_tick_frame hx
    exact .inl ⟨hn, by simpa using ha⟩
  · simp
  · simp
  · simp
  · have ha : u.answers = s.answers := by simpa using runCommand_answers_kept hu
    rcases deliver_cases n u with ⟨hn, e⟩ | ⟨r, hn, e⟩ <;> rw [e]
    · exact .inl ⟨hn, ha⟩
    · exact .inr ⟨n, r, ht, hn, by rw [ha]⟩
  · simp
  · simp

/-- The records of a list of answers that stands newest first, in the order of their delivery (30_encoding.md R89). -/
def recordsIn (answers : List Answer) : List (List Byte) := answers.reverse.filterMap fun a => a.response.data

theorem recordsIn_cons (n : Nat) (r : Response) (answers : List Answer) :
    recordsIn (⟨n, r⟩ :: answers) = recordsIn answers ++ r.data.toList := by
  cases hd : r.data <;> simp [recordsIn, List.filterMap_append, hd]

theorem recordsAfter_of_answers_eq {s t : State} {new : List Answer} (h : t.answers = new ++ s.answers) :
    recordsAfter s.answers.length t = recordsIn new := by
  simp [recordsAfter, recordsIn, h]

/-! ## Whole runs -/

theorem accepted_concat (trace : List State) (m : State) :
    accepted (trace ++ [m]) = accepted trace ++ (storesNext m).toList := by
  cases hm : storesNext m <;> simp [accepted, List.filterMap_append, hm]

/-- Over a run the responses grow by some new ones, and these hold the records that left the queue, in order. -/
theorem run_conserves {s t : State} {trace : List State} (h : Run s trace t) :
    ∃ new, t.answers = new ++ s.answers ∧ s.blk.queue ++ accepted trace = recordsIn new ++ t.blk.queue := by
  induction h with
  | start => exact ⟨[], rfl, by simp [accepted, recordsIn]⟩
  | @next trace m t _ hr hstep ih =>
    obtain ⟨new, hans, hqueue⟩ := ih
    have hone := step_conserves hr hstep
    unfold conserves at hone
    rw [accepted_concat, ← List.append_assoc, hqueue, List.append_assoc, hone]
    rcases step_answers hstep with ⟨hn, ha⟩ | ⟨n, r, -, hn, ha⟩
    · exact ⟨new, ha.trans hans, by simp [hn]⟩
    · exact ⟨⟨n, r⟩ :: new, by rw [ha, hans, List.cons_append], by simp [hn, recordsIn_cons]⟩

/-- Settles O43: each step conserves the records, and a run adds the steps up. -/
theorem recordsLeaveInOrder : Obligations.RecordsLeaveInOrder := by
  unfold Obligations.RecordsLeaveInOrder
  intro s t trace h
  obtain ⟨new, hans, hqueue⟩ := run_conserves h
  rw [recordsAfter_of_answers_eq hans, hqueue]

/-! ## Holds (00_scope.md R13, 20_memory.md R71) -/

/-- The instructions that get no response, and when: `hold until` stands in TAKE and DEQ alone. -/
theorem exec_no_response {i : Instr} {s t : State} (hi : i ≠ .tick) (h : exec i s = .next t) (hn : t.response = none) :
    ((∃ k, i = .take .task k ∧ s.blk.sig k = 0) ∨ (i = .deq .worker ∧ s.blk.queue = [])) ∧ t = hold s := by
  cases i with
  | init c f =>
    rw [exec_init] at h
    obtain rfl := Host.Outcome.next.inj h
    rcases checkCtx_cases (.init c f) (configure f) s with ⟨_, e⟩ | ⟨_, e⟩ <;> rw [e] at hn
    · rcases configure_cases f s with ⟨_, e⟩ | ⟨_, _, e⟩ | ⟨_, _, _, e⟩ | ⟨_, _, _, e⟩ | ⟨_, _, _, _, e⟩ <;> simp [e] at hn
    · simp at hn
  | tick => exact absurd rfl hi
  | enq c l payload =>
    by_cases hl : payload.length = l.toNat
    · rw [exec_enq hl] at h
      obtain rfl := Host.Outcome.next.inj h
      rcases enqueue_cases l.toNat payload s with ⟨_, e⟩ | ⟨_, e⟩ <;> simp [e] at hn
    · simp [exec, execEnq, hl] at h
  | deq c =>
    rw [exec_deq] at h
    obtain rfl := Host.Outcome.next.inj h
    rcases checkCtx_cases (.deq c) dequeue s with ⟨hc, e⟩ | ⟨_, e⟩ <;> rw [e] at hn ⊢
    · obtain rfl : c = .worker := by simpa [allowedCtx] using hc
      rcases dequeue_cases s with ⟨hq, e⟩ | ⟨r, rest, _, e⟩
      · exact ⟨.inr ⟨rfl, hq⟩, e⟩
      · simp [e] at hn
    · simp at hn
  | take c k =>
    rw [exec_take] at h
    obtain rfl := Host.Outcome.next.inj h
    rcases checkCtx_cases (.take c k) (takeSignal k) s with ⟨hc, e⟩ | ⟨_, e⟩ <;> rw [e] at hn ⊢
    · obtain rfl : c = .task := by simpa [allowedCtx] using hc
      rcases takeSignal_cases k s with ⟨hz, e⟩ | ⟨_, e⟩
      · exact ⟨.inl ⟨k, rfl, hz⟩, e⟩
      · simp [e] at hn
    · simp at hn
  | rdstat c => rw [exec_rdstat] at h; obtain rfl := Host.Outcome.next.inj h; simp at hn
  | rddrop c => rw [exec_rddrop] at h; obtain rfl := Host.Outcome.next.inj h; simp at hn

/-- The turn of a caller with a command outstanding runs that command. -/
theorem step_serve {s : State} {n : Nat} {bytes : List Byte} (ht : turnOf s = .serve n)
    (ho : outstanding s.callers n = some bytes) :
    step s = deliverOutcome n (runCommand .caller bytes (beginTurn s)) := by
  simp [step, ht, runTurn, serveCaller, ho]

theorem deliverOutcome_next {n : Nat} {x : Host.Outcome State Fault Refusal} {t : State}
    (h : deliverOutcome n x = .next t) : ∃ u, x = .next u ∧ t = deliver n u := by
  cases x with
  | next u => exact ⟨u, rfl, (Host.Outcome.next.inj h).symm⟩
  | fault r => simp [deliverOutcome] at h
  | refused r => simp [deliverOutcome] at h

/-- Settles O11: an illegal word is answered, and of the decoded instructions only the two holds give no response; their bytes
are then known, because the decoder ignores none. -/
theorem onlyTakeAndDeqHold : Obligations.OnlyTakeAndDeqHold := by
  unfold Obligations.OnlyTakeAndDeqHold
  intro s t n bytes ht ho h hn
  rw [step_serve ht ho] at h
  obtain ⟨u, hu, rfl⟩ := deliverOutcome_next h
  rw [deliver_response] at hn
  rcases runCommand_cases hu with ⟨i, hd, hx⟩ | ⟨-, rfl⟩
  · obtain ⟨htick, -⟩ := decode_caller_instr hd
    obtain ⟨hheld, rfl⟩ := exec_no_response htick hx hn
    have hbytes := encode_of_decode_caller hd
    rw [show deliver n (hold (beginTurn s)) = hold (beginTurn s) from rfl]
    refine ⟨?_, by simp⟩
    rcases hheld with ⟨k, rfl, hz⟩ | ⟨rfl, hq⟩
    · exact .inl ⟨k, hbytes.symm, by simpa using hz⟩
    · exact .inr ⟨hbytes.symm, by simpa using hq⟩
  · simp at hn

/-! ## Releases (20_memory.md R68, first item) -/

/-- Only a service raises a count of a signal. -/
theorem BlockChange.signal_raised {s : State} {b : Block} (h : BlockChange s b) {k : Signal} (hk : s.blk.sig k < b.sig k) :
    ∃ d, servicesNext s = true ∧ b = serviceBlock s.params d s.blk := by
  cases h with
  | serviced d hn _ => exact ⟨d, hn, rfl⟩
  | taken n c j =>
    rw [setSig_sig] at hk
    split at hk
    · rename_i hkj
      rw [hkj] at hk
      omega
    · omega
  | same | counted | failed | started | reset => simp at hk
  | dropped | appended | removed => cases k <;> exact absurd hk (lt_irrefl _)

/-- Every service releases the base signal (41_tick.md R135). -/
theorem serviceBlock_sigBase {p : Params} {b : Block} (h : b.Inv p) (d : Bool) :
    (serviceBlock p d b).sigBase = min (b.sigBase + 1) p.sigLimit := by
  have hbase := serviceBlock_sig p d b .base
  rw [if_pos (.inl rfl), satInc_eq_min (h.sigRange .base)] at hbase
  exact hbase

/-- Settles O35: a raised count of either divided signal shows a service, and every service releases the base signal. -/
theorem derivedReleaseOnlyWithBase : Obligations.DerivedReleaseOnlyWithBase := by
  unfold Obligations.DerivedReleaseOnlyWithBase
  intro s t hs h hraised
  obtain ⟨-, hb⟩ := step_block_change h
  obtain ⟨d, hn, e⟩ : ∃ d, servicesNext s = true ∧ t.blk = serviceBlock s.params d s.blk := by
    rcases hraised with hk | hk
    · exact hb.signal_raised (k := .d10) hk
    · exact hb.signal_raised (k := .d100) hk
  exact ⟨hn, by rw [e, serviceBlock_sigBase hs.block]⟩

/-! ## The step and the decoded instruction (30_encoding.md sections 1 and 4) -/

theorem runCommand_of_decode {who : Issuer} {bytes : List Byte} {i : Instr} (h : decode who bytes = .instr i) (s : State) :
    runCommand who bytes s = exec i s := by
  simp [runCommand, h]

/-- Settles O8: the two kinds of turn that run an instruction, the agenda's first turn, and what a delivery does. -/
theorem stepRunsDecodedInstruction : Obligations.StepRunsDecodedInstruction := by
  unfold Obligations.StepRunsDecodedInstruction
  refine ⟨fun s n bytes i ht ho hd => ?_, fun s ht => ?_, fun s t rest ha => ?_, fun n t hn => ?_, fun n t r hn => ?_⟩
  · rw [step_serve ht ho, runCommand_of_decode hd]
  · rw [step, ht, runTurn_service]
  · simp [turnOf, beginTurn, ha]
  · simp [deliverOutcome, deliver, hn]
  · simp [deliverOutcome, deliver, hn]

end Sys2Proof.Machine

/-! SUPPORT. The encoding of the commands (30_encoding.md): what makes a word legal, that decoding and encoding are inverse to
each other, what the alarm alone issues, which contexts may call an operation, and what the harness directives stand for. -/

namespace Sys2Proof

/-! ## Legal words (30_encoding.md R93, R95) -/

/-- The checks of 30_encoding.md R93, as propositions about the fields. -/
theorem legalWord_iff (w : Word) : legalWord w = true ↔
    externalOp (opField w) = true ∧ ctxField w ≠ 0b11 ∧ rsvField w = 0 ∧ (opField w ≠ 0x5 → selField w = 0) ∧
      (opField w = 0x5 → selField w ≠ 0b11) ∧ (opField w ≠ 0x3 → lenField w = 0) := by
  simp [legalWord, and_assoc, imp_iff_not_or]

/-- Ten opcodes are reserved or internal (30_encoding.md R82, R95). -/
theorem externalOp_eq_false_iff (op : BitVec 4) :
    externalOp op = false ↔ op ∈ [0x0, 0x2, 0x8, 0x9, 0xA, 0xB, 0xC, 0xD, 0xE, 0xF] := by
  revert op; decide

theorem ctxOfBits_of_ne_reserved {b : BitVec 2} (h : b ≠ 0b11) : ∃ c, ctxOfBits b = some c := by
  rw [← Option.isSome_iff_exists]
  revert b; decide

theorem signalOfBits_of_ne_reserved {b : BitVec 2} (h : b ≠ 0b11) : ∃ k, signalOfBits b = some k := by
  rw [← Option.isSome_iff_exists]
  revert b; decide

theorem ctxBits_ne_reserved (c : Ctx) : ctxBits c ≠ 3#2 := by cases c <;> decide

theorem signalBits_ne_reserved (k : Signal) : signalBits k ≠ 3#2 := by cases k <;> decide

/-- The fields of a legal word name a context and a signal: the two reserved values are illegal. -/
theorem legalWord_names {w : Word} (h : legalWord w = true) :
    ∃ c k, ctxOfBits (ctxField w) = some c ∧ signalOfBits (selField w) = some k := by
  obtain ⟨-, hctx, -, hsel0, hsel, -⟩ := (legalWord_iff w).mp h
  obtain ⟨c, hc⟩ := ctxOfBits_of_ne_reserved hctx
  have hne : selField w ≠ 0b11 := by
    by_cases hop : opField w = 0x5
    · exact hsel hop
    · rw [hsel0 hop]; decide
  obtain ⟨k, hk⟩ := signalOfBits_of_ne_reserved hne
  exact ⟨c, k, hc, hk⟩

/-- The word of every instruction that a caller may issue is legal. -/
theorem legalWord_encodeWord {i : Instr} (h : i ≠ .tick) : legalWord (encodeWord i) = true := by
  rw [legalWord_iff]
  cases i with
  | tick => exact absurd rfl h
  | take ctx sel => simp [encodeWord, externalOp, ctxBits_ne_reserved, signalBits_ne_reserved]
  | init ctx _ | enq ctx _ _ | deq ctx | rdstat ctx | rddrop ctx => simp [encodeWord, externalOp, ctxBits_ne_reserved]

/-! ## What a caller's word decodes to -/

theorem decode_caller_framed {w : Word} {operand : List Byte} (h : operand.length = operandBytes w) :
    decode .caller (wordBytes w ++ operand) = decodeExternal w operand := by
  rw [decode, splitCommand_wordBytes w operand h]

/-- A legal word selects the operation of its opcode (30_encoding.md R82). -/
theorem decodeExternal_of_legal {w : Word} {c : Ctx} {k : Signal} (h : legalWord w = true)
    (hc : ctxOfBits (ctxField w) = some c) (hk : signalOfBits (selField w) = some k) (operand : List Byte) :
    decodeExternal w operand = operation (opField w) c k (lenField w) operand := by
  simp [decodeExternal, h, hc, hk]

theorem decodeExternal_of_not_legal {w : Word} (h : legalWord w = false) (operand : List Byte) :
    decodeExternal w operand = .illegal := by
  simp [decodeExternal, h]

/-- Each of the six external opcodes has its operation. -/
theorem operation_of_externalOp {op : BitVec 4} (h : externalOp op = true) (c : Ctx) (k : Signal) (len : BitVec 16)
    (operand : List Byte) : ∃ i, operation op c k len operand = .instr i := by
  simp only [externalOp, Bool.or_eq_true, decide_eq_true_eq] at h
  obtain ((((rfl | rfl) | rfl) | rfl) | rfl) | rfl := h <;> exact ⟨_, rfl⟩

theorem decodeExternal_instr_of_legal {w : Word} (h : legalWord w = true) (operand : List Byte) :
    ∃ i, decodeExternal w operand = .instr i := by
  obtain ⟨c, k, hc, hk⟩ := legalWord_names h
  rw [decodeExternal_of_legal h hc hk]
  exact operation_of_externalOp ((legalWord_iff w).mp h).1 c k _ operand

/-- A word with the operands it declares is illegal exactly if it fails a check of 30_encoding.md R93. -/
theorem decode_caller_illegal_iff {w : Word} {operand : List Byte} (h : operand.length = operandBytes w) :
    decode .caller (wordBytes w ++ operand) = .illegal ↔ legalWord w = false := by
  rw [decode_caller_framed h]
  cases hl : legalWord w with
  | true =>
    obtain ⟨i, hi⟩ := decodeExternal_instr_of_legal hl operand
    simp [hi]
  | false => simp [decodeExternal_of_not_legal hl]

/-! ## Decoding what was encoded -/

/-- A legal word made of its fields selects the operation of its opcode, with the context, signal and length put in. -/
theorem decodeExternal_commandWord {op : BitVec 4} {c : Ctx} {k : Signal} {len : BitVec 16}
    (h : legalWord (commandWord op (ctxBits c) (signalBits k) len) = true) (operand : List Byte) :
    decodeExternal (commandWord op (ctxBits c) (signalBits k) len) operand = operation op c k len operand := by
  rw [decodeExternal_of_legal (c := c) (k := k) h (by simp) (by simp), opField_commandWord, lenField_commandWord]

/-- The operation that an instruction's word selects is the instruction's own; SEL is `base`'s value, 0, where it names no signal. -/
theorem decodeExternal_encode {i : Instr} (h : i ≠ .tick) : decodeExternal (encodeWord i) (encodeOperand i) = .instr i := by
  have hlegal := legalWord_encodeWord h
  cases i with
  | tick => exact absurd rfl h
  | init ctx freq =>
    calc decodeExternal (encodeWord (.init ctx freq)) (wordBytes freq)
      _ = operation 0x1 ctx .base 0 (wordBytes freq) := decodeExternal_commandWord (k := .base) hlegal _
      _ = .instr (.init ctx freq) := by simp [operation]
  | enq ctx len payload => exact decodeExternal_commandWord (k := .base) hlegal payload
  | deq ctx | rdstat ctx | rddrop ctx => exact decodeExternal_commandWord (k := .base) hlegal []
  | take ctx sel => exact decodeExternal_commandWord hlegal []

theorem issuerOf_eq_caller {i : Instr} (h : i ≠ .tick) : issuerOf i = .caller := by
  cases i with
  | tick => exact absurd rfl h
  | init _ _ | enq _ _ _ | deq _ | take _ _ | rdstat _ | rddrop _ => rfl

/-- Settles O1: TICK is the alarm's one word; a caller's instruction is framed, and its legal word selects it. -/
theorem decodeOfEncodeIsIdentity : Obligations.DecodeOfEncodeIsIdentity := by
  unfold Obligations.DecodeOfEncodeIsIdentity
  intro i hw
  by_cases hi : i = .tick
  · rw [hi]; exact Machine.decode_alarm_tick
  · rw [issuerOf_eq_caller hi, decode, Machine.splitCommand_encode hw]
    exact decodeExternal_encode hi

/-- Settles O2: a decoded command carries the operands it declares, and its word leaves unused fields at 0. -/
theorem encodeOfDecodeIsIdentity : Obligations.EncodeOfDecodeIsIdentity := by
  unfold Obligations.EncodeOfDecodeIsIdentity
  intro bytes i h
  exact ⟨(Machine.decode_caller_instr h).2, encode_of_decode_caller h⟩

/-! ## Totality and the illegal encodings (30_encoding.md R95, R96) -/

/-- A word's bytes and the operands after them determine both (20_memory.md R62). -/
theorem wordBytes_append_inj {v w : Word} {xs ys : List Byte} (h : wordBytes v ++ xs = wordBytes w ++ ys) :
    v = w ∧ xs = ys := by
  obtain ⟨hword, hrest⟩ := List.append_inj h rfl
  exact ⟨by rw [← firstWord_wordBytes v, hword, firstWord_wordBytes], hrest⟩

/-- An illegal word is answered ERR_ILLEGAL and nothing else happens (30_encoding.md R93). -/
theorem runCommand_of_illegal {who : Issuer} {bytes : List Byte} (h : decode who bytes = .illegal) (s : Machine.State) :
    Machine.runCommand who bytes s = .next (Machine.raiseError .errIllegal s) := by
  simp [Machine.runCommand, h]

/-- Settles O3: a legal word decodes to an instruction, of which its bytes are the encoding; any other word is illegal. -/
theorem decoderIsTotal : Obligations.DecoderIsTotal := by
  unfold Obligations.DecoderIsTotal
  intro w operand hlen
  cases hl : legalWord w with
  | false =>
    have hd := (decode_caller_illegal_iff hlen).mpr hl
    exact .inr ⟨hd, runCommand_of_illegal hd⟩
  | true =>
    obtain ⟨i, hi⟩ := decodeExternal_instr_of_legal hl operand
    have hd : decode .caller (wordBytes w ++ operand) = .instr i := by rw [decode_caller_framed hlen, hi]
    obtain ⟨hword, hoperand⟩ := wordBytes_append_inj (encode_of_decode_caller hd)
    obtain ⟨htick, -⟩ := Machine.decode_caller_instr hd
    refine .inl ⟨i, hd, hword, hoperand, ?_⟩
    cases i with
    | tick => exact absurd rfl htick
    | init _ _ | enq _ _ _ | deq _ | take _ _ | rdstat _ | rddrop _ => simp

/-- The reserved and illegal encodings of 30_encoding.md R95: a word is illegal exactly if it is one of them. -/
theorem legalWord_eq_false_iff (w : Word) : legalWord w = false ↔
    opField w ∈ [0x0, 0x2, 0x8, 0x9, 0xA, 0xB, 0xC, 0xD, 0xE, 0xF] ∨ ctxField w = 0b11 ∨ rsvField w ≠ 0 ∨
      (opField w ≠ 0x5 ∧ selField w ≠ 0) ∨ (opField w = 0x5 ∧ selField w = 0b11) ∨
      (opField w ≠ 0x3 ∧ lenField w ≠ 0) := by
  rw [← Bool.not_eq_true, legalWord_iff, ← externalOp_eq_false_iff, ← Bool.not_eq_true]
  tauto

/-- Settles O4: the illegal words are those that fail a check, and each is answered alike. -/
theorem illegalEncodingsInFull : Obligations.IllegalEncodingsInFull := by
  unfold Obligations.IllegalEncodingsInFull
  refine ⟨fun w operand hlen => ?_, fun bytes s hd => runCommand_of_illegal hd s, ?_⟩
  · rw [decode_caller_illegal_iff hlen, legalWord_eq_false_iff]
  · exact (decode_caller_illegal_iff (w := 0) (operand := []) rfl).mpr (by decide)

/-! ## The examples (30_encoding.md R101) and the payloads of the wrong length (R88) -/

/-- Bytes that are a well-formed instruction's encoding decode to it. -/
theorem decode_of_encode_eq {bytes : List Byte} (i : Instr) (hw : wellFormed i = true) (h : encode i = bytes) :
    decode (issuerOf i) bytes = .instr i := by
  rw [← h]; exact decodeOfEncodeIsIdentity i hw

/-- Settles O5: each example is the encoding of the instruction it names, and TAKE with SEL 0b11 fails a check. -/
theorem exampleWordsDecode : Obligations.ExampleWordsDecode := by
  unfold Obligations.ExampleWordsDecode
  refine ⟨decode_of_encode_eq (.init .task 1000000) rfl (by decide),
    decode_of_encode_eq (.enq .isr 5 [1, 2, 3, 4, 5]) rfl (by decide),
    decode_of_encode_eq (.enq .task 40 ((List.range 40).map (BitVec.ofNat 8))) (by decide) (by decide),
    decode_of_encode_eq (.deq .worker) rfl (by decide),
    decode_of_encode_eq (.take .task .base) rfl (by decide),
    decode_of_encode_eq (.take .task .d10) rfl (by decide),
    decode_of_encode_eq (.take .task .d100) rfl (by decide),
    decode_of_encode_eq (.rdstat .task) rfl (by decide),
    decode_of_encode_eq (.rdstat .isr) rfl (by decide),
    decode_of_encode_eq (.rddrop .worker) rfl (by decide),
    decode_of_encode_eq (.deq .isr) rfl (by decide), ?_,
    decode_of_encode_eq .tick rfl (by decide)⟩
  exact (decode_caller_illegal_iff (w := 0x53000000) (operand := []) rfl).mpr (by decide)

/-- Settles O6: a payload of another length than LEN leaves the bytes unframed, and an issue of such bytes is refused. -/
theorem payloadOfWrongLengthIsNoCommand : Obligations.PayloadOfWrongLengthIsNoCommand := by
  unfold Obligations.PayloadOfWrongLengthIsNoCommand
  intro w payload hop hlen
  have hdeclared : operandBytes w = (lenField w).toNat := by simp [operandBytes, hop]
  have hno : isCommand (wordBytes w ++ payload) = false := by
    rw [← Bool.not_eq_true, Machine.isCommand_wordBytes_append_iff, hdeclared]
    exact hlen
  refine ⟨(decode_eq_notACommand_iff .caller _).mpr hno, fun s n ht => ?_⟩
  simp [Machine.step, ht, Machine.runTurn, Machine.issueCommand, hno]

/-! ## The issuer of TICK (30_encoding.md R97) -/

/-- The alarm's bytes decode to TICK or to nothing (30_encoding.md R97). -/
theorem decode_alarm_instr {bytes : List Byte} {i : Instr} (h : decode .alarm bytes = .instr i) : i = .tick := by
  unfold decode at h
  split at h
  · simp at h
  · simp only [decodeInternal] at h
    split at h
    · exact (Decoded.instr.inj h).symm
    · simp at h

/-- A caller's word with OP 0x2 is illegal, whatever its other fields hold. -/
theorem decode_caller_tick_word {w : Word} (h : opField w = 0x2) : decode .caller (wordBytes w) = .illegal := by
  have hno : ([] : List Byte).length = operandBytes w := by simp [operandBytes, h]
  have hillegal : legalWord w = false := by
    rw [legalWord_eq_false_iff, h]
    exact .inl (by decide)
  simpa using (decode_caller_illegal_iff hno).mpr hillegal

end Sys2Proof

namespace Sys2Proof.Machine

/-! ## Only the alarm's TICK raises a count (30_encoding.md R97) -/

theorem configure_sig (freq : Word) (s : State) (k : Signal) : (configure freq s).blk.sig k = s.blk.sig k := by
  rcases configure_cases freq s with ⟨_, e⟩ | ⟨_, _, e⟩ | ⟨_, _, _, e⟩ | ⟨_, _, _, e⟩ | ⟨_, _, _, _, e⟩ <;> simp [e]

theorem enqueue_sig (len : Nat) (payload : List Byte) (s : State) (k : Signal) :
    (enqueue len payload s).blk.sig k = s.blk.sig k := by
  rcases enqueue_cases len payload s with ⟨_, e⟩ | ⟨_, e⟩ <;> rw [e] <;> cases k <;> rfl

theorem dequeue_sig (s : State) (k : Signal) : (dequeue s).blk.sig k = s.blk.sig k := by
  rcases dequeue_cases s with ⟨_, e⟩ | ⟨r, rest, _, e⟩ <;> rw [e] <;> cases k <;> rfl

/-- TAKE only lowers counts (43_signals_inspect.md R190). -/
theorem takeSignal_sig_le (j : Signal) (s : State) (k : Signal) : (takeSignal j s).blk.sig k ≤ s.blk.sig k := by
  rcases takeSignal_cases j s with ⟨_, e⟩ | ⟨_, e⟩ <;> rw [e]
  · exact le_rfl
  · rw [respond_blk, setSig_sig]
    split
    · rename_i hkj
      rw [hkj]; exact Nat.sub_le _ 1
    · exact le_rfl

theorem checkCtx_sig_le (i : Instr) {body : State → State} {s : State} {k : Signal}
    (h : (body s).blk.sig k ≤ s.blk.sig k) : (checkCtx i body s).blk.sig k ≤ s.blk.sig k := by
  rcases checkCtx_cases i body s with ⟨_, e⟩ | ⟨_, e⟩ <;> rw [e]
  · exact h
  · exact le_rfl

/-- Every instruction but TICK leaves each count or lowers it. -/
theorem exec_sig_le {i : Instr} {s t : State} (hi : i ≠ .tick) (h : exec i s = .next t) (k : Signal) :
    t.blk.sig k ≤ s.blk.sig k := by
  cases i with
  | tick => exact absurd rfl hi
  | init c f =>
    rw [exec_init] at h
    obtain rfl := Host.Outcome.next.inj h
    exact checkCtx_sig_le _ (configure_sig f s k).le
  | enq c l payload =>
    by_cases hl : payload.length = l.toNat
    · rw [exec_enq hl] at h
      obtain rfl := Host.Outcome.next.inj h
      exact (enqueue_sig l.toNat payload s k).le
    · simp [exec, execEnq, hl] at h
  | deq c =>
    rw [exec_deq] at h
    obtain rfl := Host.Outcome.next.inj h
    exact checkCtx_sig_le _ (dequeue_sig s k).le
  | take c j =>
    rw [exec_take] at h
    obtain rfl := Host.Outcome.next.inj h
    exact checkCtx_sig_le _ (takeSignal_sig_le j s k)
  | rdstat c => rw [exec_rdstat] at h; obtain rfl := Host.Outcome.next.inj h; exact le_rfl
  | rddrop c => rw [exec_rddrop] at h; obtain rfl := Host.Outcome.next.inj h; exact le_rfl

/-- Settles O7: OP 0x2 is no external opcode, so a caller's bytes decode to other instructions, and those raise no count. -/
theorem onlyTheAlarmIssuesTick : Obligations.OnlyTheAlarmIssuesTick := by
  unfold Obligations.OnlyTheAlarmIssuesTick
  refine ⟨fun w s hop => runCommand_of_illegal (decode_caller_tick_word hop) s, fun bytes i h => decode_alarm_instr h,
    fun bytes i hd s t h k => ?_⟩
  obtain ⟨htick, -⟩ := decode_caller_instr hd
  exact exec_sig_le htick h k

/-! ## The context table (30_encoding.md R94) -/

theorem configure_status {freq : Word} {s : State} {r : Response} (h : (configure freq s).response = some r) :
    r.status ≠ .errContext := by
  rcases configure_cases freq s with ⟨_, e⟩ | ⟨_, _, e⟩ | ⟨_, _, _, e⟩ | ⟨_, _, _, e⟩ | ⟨_, _, _, _, e⟩ <;>
    rw [e] at h <;> obtain rfl := Option.some.inj h <;> simp

theorem enqueue_status {len : Nat} {payload : List Byte} {s : State} {r : Response}
    (h : (enqueue len payload s).response = some r) : r.status ≠ .errContext := by
  rcases enqueue_cases len payload s with ⟨_, e⟩ | ⟨_, e⟩ <;> rw [e] at h <;> obtain rfl := Option.some.inj h <;> simp

theorem dequeue_status {s : State} {r : Response} (h : (dequeue s).response = some r) : r.status ≠ .errContext := by
  rcases dequeue_cases s with ⟨_, e⟩ | ⟨_, _, _, e⟩ <;> rw [e] at h
  · simp at h
  · obtain rfl := Option.some.inj h; simp

theorem takeSignal_status {k : Signal} {s : State} {r : Response} (h : (takeSignal k s).response = some r) :
    r.status ≠ .errContext := by
  rcases takeSignal_cases k s with ⟨_, e⟩ | ⟨_, e⟩ <;> rw [e] at h
  · simp at h
  · obtain rfl := Option.some.inj h; simp

theorem checkCtx_of_allowed {i : Instr} (h : allowedCtx i = true) (body : State → State) (s : State) :
    checkCtx i body s = body s := by
  simp [checkCtx, h]

theorem checkCtx_of_not_allowed {i : Instr} (h : allowedCtx i = false) (body : State → State) (s : State) :
    checkCtx i body s = raiseError .errContext s := by
  simp [checkCtx, h]

/-- From a context the table admits, an operation's own rule gives no ERR_CONTEXT: the check alone does. -/
theorem exec_status_of_allowed {i : Instr} {s t : State} (hc : allowedCtx i = true) (h : exec i s = .next t)
    {r : Response} (hr : t.response = some r) : r.status ≠ .errContext := by
  cases i with
  | init c f =>
    rw [exec_init, checkCtx_of_allowed hc] at h
    obtain rfl := Host.Outcome.next.inj h
    exact configure_status hr
  | tick =>
    obtain ⟨hn, -⟩ := exec_tick_frame h
    simp [hn] at hr
  | enq c l payload =>
    by_cases hl : payload.length = l.toNat
    · rw [exec_enq hl] at h
      obtain rfl := Host.Outcome.next.inj h
      exact enqueue_status hr
    · simp [exec, execEnq, hl] at h
  | deq c =>
    rw [exec_deq, checkCtx_of_allowed hc] at h
    obtain rfl := Host.Outcome.next.inj h
    exact dequeue_status hr
  | take c k =>
    rw [exec_take, checkCtx_of_allowed hc] at h
    obtain rfl := Host.Outcome.next.inj h
    exact takeSignal_status hr
  | rdstat c =>
    rw [exec_rdstat] at h
    obtain rfl := Host.Outcome.next.inj h
    obtain rfl := Option.some.inj hr
    simp
  | rddrop c =>
    rw [exec_rddrop] at h
    obtain rfl := Host.Outcome.next.inj h
    obtain rfl := Option.some.inj hr
    simp

/-- From any other context an instruction answers ERR_CONTEXT and does nothing else. -/
theorem exec_of_not_allowed {i : Instr} (hc : allowedCtx i = false) (s : State) :
    exec i s = .next (raiseError .errContext s) := by
  cases i with
  | init c f => rw [exec_init, checkCtx_of_not_allowed hc]
  | deq c => rw [exec_deq, checkCtx_of_not_allowed hc]
  | take c k => rw [exec_take, checkCtx_of_not_allowed hc]
  | tick | enq _ _ _ | rdstat _ | rddrop _ => simp [allowedCtx] at hc

/-- One row of the context table: the operation admits exactly the contexts of `P`. -/
theorem exec_context_row {i : Instr} {P : Prop} [Decidable P] (hrow : allowedCtx i = decide P) (s : State) :
    if P then ∀ t, exec i s = .next t → ∀ r, t.response = some r → r.status ≠ .errContext
      else exec i s = .next (raiseError .errContext s) := by
  split <;> rename_i hP
  · exact fun t h r => exec_status_of_allowed (by simp [hrow, hP]) h
  · exact exec_of_not_allowed (by simp [hrow, hP]) s

/-- Settles O9: INIT, DEQ and TAKE by their row, ENQ and the two reads because the table admits every context. -/
theorem contextTable : Obligations.ContextTable := by
  unfold Obligations.ContextTable
  exact ⟨fun c f s => exec_context_row (i := .init c f) rfl s, fun c l b s t h r => exec_status_of_allowed rfl h,
    fun c s => exec_context_row (i := .deq c) rfl s, fun c k s => exec_context_row (i := .take c k) rfl s,
    fun c s t h r => exec_status_of_allowed rfl h, fun c s t h r => exec_status_of_allowed rfl h⟩

/-! ## The harness directives (30_encoding.md R100) -/

@[simp] theorem iterate_countedOnce_params (k : Nat) (s : State) : (countedOnce^[k] s).params = s.params := by
  induction k generalizing s with
  | zero => rfl
  | succ k ih => rw [Function.iterate_succ_apply, ih, countedOnce_params]

theorem directiveTurns_count_iff (n : Nat) (s : State) (turns : List Turn) :
    directiveTurns (.count n) s = some turns ↔ turns = List.replicate n .count ∧ countsEnabled s.params n s.blk = true := by
  rw [directiveTurns]
  cases countsEnabled s.params n s.blk with
  | true => simp [eq_comm]
  | false => simp

/-- A number of counts are all enabled steps exactly if the run of any fewer of them reaches a state that enables the next. -/
theorem countsEnabled_iff_runTurns (n : Nat) (s : State) : countsEnabled s.params n s.blk = true ↔
    ∀ j, j < n → ∃ m, runTurns (List.replicate j .count) s = .next m ∧ countEnabled m.params m.blk = true := by
  simp [countsEnabled_iff, runTurns_replicate_count]

/-- Settles O55: COUNT and TICKS by the machine after that many counts; TICKS by unrolling its first tick. -/
theorem harnessDirectives : Obligations.HarnessDirectives := by
  unfold Obligations.HarnessDirectives
  refine ⟨fun s n turns => ?_, fun s => rfl, fun s => rfl, fun s n turns h => ?_,
    fun s level => ⟨rfl, runTurns_ready level s⟩⟩
  · rw [directiveTurns_count_iff, countsEnabled_iff_runTurns]
  · obtain ⟨k, more, hk, hrun, hmore, rfl⟩ := ticksTurns_succ h
    have hfewest := countsUntilPending_some hk
    exact ⟨k, servedOnce (countedOnce^[k] s), more, rfl,
      fun j hj => ⟨countedOnce^[j] s, runTurns_replicate_count j s, hfewest j hj⟩, hrun, hmore⟩

end Sys2Proof.Machine

/-! SUPPORT. INIT (40_initialize.md): what it answers and writes, which frequencies it takes, what it leaves alone, and what no
run without a reset changes once it has answered. -/

namespace Sys2Proof.Machine

/-! ## What INIT does, by what it finds (40_initialize.md R112) -/

theorem exec_init_task (freq : Word) (s : State) : exec (.init .task freq) s = .next (configure freq s) := by
  rw [exec_init, checkCtx_of_allowed rfl]

/-- INIT runs once (40_initialize.md R114). -/
theorem exec_init_of_not_uninit {s : State} (h : s.blk.state ≠ .uninit) (freq : Word) :
    exec (.init .task freq) s = .next (raiseError .errState s) := by
  rw [exec_init_task, configure, if_pos h]

/-- A configuration error is recorded under the code it is answered with (40_initialize.md R115). -/
theorem configure_config_error {freq : Word} {s : State} {r : Response} (h : (configure freq s).response = some r)
    (hr : r.status = .errDeviceNotReady ∨ r.status = .errRateZero ∨ r.status = .errRateOverflow) :
    (configure freq s).blk.state = .cfgfail ∧ (configure freq s).blk.err.code = r.status.code := by
  rcases configure_cases freq s with ⟨_, e⟩ | ⟨_, _, e⟩ | ⟨_, _, _, e⟩ | ⟨_, _, _, e⟩ | ⟨_, _, _, _, e⟩ <;>
    rw [e] at h ⊢ <;> obtain rfl := Option.some.inj h
  · simp at hr
  · exact ⟨rfl, rfl⟩
  · exact ⟨rfl, rfl⟩
  · exact ⟨rfl, rfl⟩
  · simp at hr

theorem exec_init_config_error {c : Ctx} {freq : Word} {s t : State} {r : Response} (h : exec (.init c freq) s = .next t)
    (hn : t.response = some r)
    (hr : r.status = .errDeviceNotReady ∨ r.status = .errRateZero ∨ r.status = .errRateOverflow) :
    t.blk.state = .cfgfail ∧ t.blk.err.code = r.status.code := by
  rw [exec_init] at h
  obtain rfl := Host.Outcome.next.inj h
  rcases checkCtx_cases (.init c freq) (configure freq) s with ⟨_, e⟩ | ⟨_, e⟩ <;> rw [e] at hn ⊢
  · exact configure_config_error hn hr
  · obtain rfl := Option.some.inj hn
    simp at hr

/-! ## What a run without a reset keeps of the block -/

/-- A property of the block that every change but a reset keeps holds at the end of a run that starts with it. -/
theorem Run.keeps_blk {P : Block → Prop} {s t : State} {trace : List State} (h : Run s trace t) (h0 : P s.blk)
    (hkeep : ∀ {m : State} {b : Block}, BlockChange m b → (∀ draw, turnOf m ≠ .reset draw) → P m.blk → P b) : P t.blk := by
  induction h with
  | start => exact h0
  | next _ hr hstep ih =>
    obtain ⟨-, hb⟩ := step_block_change hstep
    exact hkeep hb (turn_not_reset hr) ih

/-- The alarm of a block that is not RUNNING is not armed (41_tick.md R131). -/
theorem timerCount_not_pending {b : Block} (p : Params) (hr : b.state ≠ .running) (hp : b.tickPending = false) :
    (timerCount p b).tickPending = false := by
  rcases timerCount_cases p b with ⟨hpend, -⟩ | ⟨-, hrun, -⟩ | ⟨-, -, e⟩
  · simp [hp] at hpend
  · exact absurd hrun hr
  · rw [e]; exact hp

/-! ## A configuration error is final (40_initialize.md R115) -/

/-- `b` is in CFGFAIL with the cause of `b₀`, with no expiry pending and no signal count above its count in `b₀`. -/
structure Block.FailedSince (b₀ b : Block) : Prop where
  state : b.state = .cfgfail
  cause : b.err = b₀.err
  notPending : b.tickPending = false
  notReleased : ∀ k, b.sig k ≤ b₀.sig k

theorem Block.Inv.failedSince {p : Params} {b : Block} (h : b.Inv p) (hc : b.state = .cfgfail) : b.FailedSince b := by
  refine ⟨hc, rfl, ?_, fun _ => le_rfl⟩
  by_contra hp
  have hrun := h.pendingRunning (by simpa using hp)
  simp [hc] at hrun

/-- With no expiry pending no service runs, and an INIT that writes finds UNINIT: no change leaves CFGFAIL. -/
theorem BlockChange.failedSince {s : State} {b₀ b : Block} (h : BlockChange s b) (hr : ∀ draw, turnOf s ≠ .reset draw)
    (hf : b₀.FailedSince s.blk) : b₀.FailedSince b := by
  obtain ⟨hstate, hcause, hpend, hsig⟩ := hf
  have hserv : servicesNext s = false := by simp [servicesNext, hpend]
  have hle : ∀ k, b.sig k ≤ b₀.sig k := fun k => by
    refine le_trans (not_lt.mp fun hk => ?_) (hsig k)
    obtain ⟨_, hn, -⟩ := h.signal_raised hk
    simp [hserv] at hn
  cases h with
  | same | dropped | appended | removed => exact ⟨hstate, hcause, hpend, hle⟩
  | counted _ =>
    exact ⟨by simpa using hstate, by simpa using hcause, timerCount_not_pending _ (by simp [hstate]) hpend, hle⟩
  | serviced d hn _ => simp [hserv] at hn
  | failed n c f cause _ hu _ => simp [hstate] at hu
  | started n c f period _ hu _ _ => simp [hstate] at hu
  | taken n c k _ _ => exact ⟨by simpa using hstate, by simpa using hcause, by simpa using hpend, hle⟩
  | reset draw ht => exact absurd ht (hr draw)

/-- RDSTAT shows the cause in bits 15:8 of STATUS (10_state.md R33). -/
theorem statusView_err (b : Block) : (statusView b).extractLsb' 8 8 = b.err.code :=
  calc (0#16 ++ b.err.code ++ 0#6 ++ b.state.code).extractLsb' 8 8
    _ = (0#16 ++ b.err.code ++ 0#6).extractLsb' 6 8 := BitVec.extractLsb'_append_eq_of_le (by decide)
    _ = (0#16 ++ b.err.code).extractLsb' 0 8 := BitVec.extractLsb'_append_eq_of_le (by decide)
    _ = b.err.code := BitVec.extractLsb'_append_eq_right

/-- Settles O20: `FailedSince` holds of a CFGFAIL block that meets the invariant, every change but a reset keeps it, and in it INIT
and RDSTAT answer as claimed. -/
theorem configurationErrorIsFinal : Obligations.ConfigurationErrorIsFinal := by
  unfold Obligations.ConfigurationErrorIsFinal
  refine ⟨fun s t c freq r => exec_init_config_error, fun s t trace hs hc hrun => ?_⟩
  obtain ⟨hstate, hcause, hpend, hsig⟩ : s.blk.FailedSince t.blk :=
    hrun.keeps_blk (hs.block.failedSince hc) BlockChange.failedSince
  exact ⟨hstate, hcause, hpend, hsig, exec_init_of_not_uninit (by simp [hstate]),
    fun c => ⟨statusView t.blk, exec_rdstat c t, by rw [statusView_err, hcause]⟩⟩

/-! ## The whole of INIT (40_initialize.md R112) -/

/-- A malformed INIT word is illegal, whatever its operand (30_encoding.md R93, R95). -/
theorem decode_malformed_init {w : Word} {operand : List Byte} (hop : opField w = 0x1) (hlen : operand.length = 4)
    (hbad : ctxField w = 0b11 ∨ selField w ≠ 0 ∨ rsvField w ≠ 0 ∨ lenField w ≠ 0) :
    decode .caller (wordBytes w ++ operand) = .illegal := by
  have hdeclared : operand.length = operandBytes w := by simp [operandBytes, hop, hlen]
  rw [decode_caller_illegal_iff hdeclared, legalWord_eq_false_iff]
  simp only [hop]
  tauto

/-- Settles O16: by the five cases of INIT's body, then the context table and the decoder. -/
theorem initSemantics : Obligations.InitSemantics := by
  unfold Obligations.InitSemantics
  refine ⟨fun s freq => ?_, fun s c freq hc => exec_of_not_allowed (by simpa [allowedCtx] using hc) s,
    fun s w operand hop hlen hbad => runCommand_of_illegal (decode_malformed_init hop hlen hbad) s⟩
  rw [exec_init_task]
  have h := configure_cases freq s
  simp only [periodOf, timerTop] at h
  rcases h with ⟨hu, e⟩ | ⟨hu, hd, e⟩ | ⟨hu, hd, hz, e⟩ | ⟨hu, hd, ho, e⟩ | ⟨hu, hd, h1, h2, e⟩ <;> rw [e]
  · rw [if_pos hu]; rfl
  · rw [if_neg (not_not.mpr hu), if_pos hd]; rfl
  · rw [if_neg (not_not.mpr hu), if_neg (by simp [hd]), if_pos hz]; rfl
  · rw [if_neg (not_not.mpr hu), if_neg (by simp [hd]), if_neg (by omega), if_pos ho]; rfl
  · rw [if_neg (not_not.mpr hu), if_neg (by simp [hd]), if_neg (by omega), if_neg (by omega)]; rfl

/-! ## Which frequencies INIT takes (40_initialize.md R113, R117) -/

theorem Params.baseRateHz_pos {p : Params} (h : p.wf = true) : 0 < p.baseRateHz := by
  simp only [Params.wf, Bool.and_eq_true, decide_eq_true_eq] at h
  omega

/-- The period is at most FREQ, so it fits the 32 bits of the answer. -/
theorem periodOf_le (p : Params) (freq : Word) : periodOf p freq ≤ freq.toNat := Nat.div_le_self _ _

theorem toNat_periodOf (p : Params) (freq : Word) : (BitVec.ofNat 32 (periodOf p freq)).toNat = periodOf p freq := by
  rw [BitVec.toNat_ofNat, Nat.mod_eq_of_lt ((periodOf_le p freq).trans_lt freq.isLt)]

/-- A 32-bit timer can represent every period (40_initialize.md R117). -/
theorem periodOf_le_timerTop {p : Params} (h : p.tw = 32) (freq : Word) : periodOf p freq ≤ timerTop p := by
  have htop : timerTop p = 2 ^ 32 - 1 := by rw [timerTop, h]
  rw [htop]
  exact (periodOf_le p freq).trans (Nat.le_pred_of_lt freq.isLt)

section Period

variable {p : Params} (h : p.wf = true) (freq : Word)
include h

theorem periodOf_eq_zero_iff : periodOf p freq = 0 ↔ freq.toNat < p.baseRateHz :=
  Nat.div_eq_zero_iff_lt (Params.baseRateHz_pos h)

theorem timerTop_lt_periodOf_iff : timerTop p < periodOf p freq ↔ 2 ^ p.tw * p.baseRateHz ≤ freq.toNat := by
  rw [← Nat.succ_le_iff, Nat.succ_eq_add_one, timerTop_succ]
  exact Nat.le_div_iff_mul_le (Params.baseRateHz_pos h)

theorem periodOf_floor : periodOf p freq * p.baseRateHz ≤ freq.toNat ∧ freq.toNat < (periodOf p freq + 1) * p.baseRateHz :=
  ⟨Nat.div_mul_le_self _ _, Nat.lt_mul_of_div_lt (Nat.lt_succ_self _) (Params.baseRateHz_pos h)⟩

end Period

/-- Settles O17: the boundaries on FREQ are those of the period against 0 and TIMER_TOP, by which INIT's three ends differ. -/
theorem periodComputation : Obligations.PeriodComputation := by
  unfold Obligations.PeriodComputation
  intro s freq hp hu hd
  refine ⟨configure freq s, exec_init_task freq s, ?_⟩
  rw [← not_lt (b := s.params.baseRateHz), ← not_le (a := 2 ^ s.params.tw * s.params.baseRateHz),
    ← periodOf_eq_zero_iff hp freq, ← timerTop_lt_periodOf_iff hp freq]
  rcases configure_cases freq s with ⟨hn, -⟩ | ⟨-, hn, -⟩ | ⟨-, -, hz, e⟩ | ⟨-, -, ho, e⟩ | ⟨-, -, h1, h2, e⟩
  · exact absurd hu hn
  · simp [hd] at hn
  · simp [e, hz]
  · have hz : periodOf s.params freq ≠ 0 := by omega
    have h32 : s.params.tw ≠ 32 := fun h => (periodOf_le_timerTop h freq).not_gt ho
    simp [e, hz, ho, h32]
  · have hz : periodOf s.params freq ≠ 0 := by omega
    obtain ⟨hfloor, hnext⟩ := periodOf_floor hp freq
    have hwhole := toNat_periodOf s.params freq
    rw [e]
    exact ⟨by simp [hz], by simp [h2.not_gt], by simp [hz, h2.not_gt], fun _ => ⟨hfloor, hnext, rfl, hwhole⟩, by simp⟩

/-! ## What INIT leaves alone (40_initialize.md R116) -/

theorem configure_frame (freq : Word) (s : State) :
    (configure freq s).blk.cnt10 = s.blk.cnt10 ∧ (configure freq s).blk.cnt100 = s.blk.cnt100 ∧
      (configure freq s).blk.queue = s.blk.queue ∧ (configure freq s).blk.drop = s.blk.drop := by
  rcases configure_cases freq s with ⟨_, e⟩ | ⟨_, _, e⟩ | ⟨_, _, _, e⟩ | ⟨_, _, _, e⟩ | ⟨_, _, _, _, e⟩ <;> simp [e]

theorem exec_init_frame (c : Ctx) (freq : Word) (s : State) : ∃ t, exec (.init c freq) s = .next t ∧
    t.blk.cnt10 = s.blk.cnt10 ∧ t.blk.cnt100 = s.blk.cnt100 ∧ (∀ k, t.blk.sig k = s.blk.sig k) ∧
      t.blk.queue = s.blk.queue ∧ t.blk.drop = s.blk.drop := by
  refine ⟨_, exec_init c freq s, ?_⟩
  rcases checkCtx_cases (.init c freq) (configure freq) s with ⟨_, e⟩ | ⟨_, e⟩ <;> rw [e]
  · obtain ⟨h10, h100, hqueue, hdrop⟩ := configure_frame freq s
    exact ⟨h10, h100, configure_sig freq s, hqueue, hdrop⟩
  · simp

/-- Settles O18: INIT's frame, and the zeros of an UNINIT block carried over it. -/
theorem initLeavesCountersAndQueue : Obligations.InitLeavesCountersAndQueue := by
  unfold Obligations.InitLeavesCountersAndQueue
  intro s c freq
  obtain ⟨t, ht, h10, h100, hsig, hqueue, hdrop⟩ := exec_init_frame c freq s
  refine ⟨t, ht, h10, h100, hsig, hqueue, hdrop, fun hs hu => ?_⟩
  obtain ⟨-, z10, z100, zsig⟩ := hs.block.uninitZero hu
  exact ⟨h10.trans z10, h100.trans z100, fun k => (hsig k).trans (zsig k)⟩

/-! ## The period is computed once (40_initialize.md R114, 10_state.md R23) -/

/-- `b` has left UNINIT, with the period of `b₀`. -/
def Block.InitialisedSince (b₀ b : Block) : Prop := b.state ≠ .uninit ∧ b.period = b₀.period

/-- A service stays in its state or halts. -/
theorem serviceBlock_not_uninit {b : Block} (p : Params) (d : Bool) (h : b.state ≠ .uninit) :
    (serviceBlock p d b).state ≠ .uninit := by
  rcases serviceBlock_cases p d b with ⟨-, e, -⟩ | ⟨-, -, e, -⟩ | ⟨-, -, e, -⟩ <;> rw [e]
  · simp
  · simp
  · exact h

/-- An INIT that writes finds UNINIT, so outside it no change but a reset writes the period or leads back to UNINIT. -/
theorem BlockChange.initialisedSince {s : State} {b₀ b : Block} (h : BlockChange s b)
    (hr : ∀ draw, turnOf s ≠ .reset draw) (hi : b₀.InitialisedSince s.blk) : b₀.InitialisedSince b := by
  obtain ⟨hstate, hperiod⟩ := hi
  cases h with
  | same | dropped | appended | removed => exact ⟨hstate, hperiod⟩
  | counted _ => exact ⟨by simpa using hstate, by simpa using hperiod⟩
  | serviced d _ _ => exact ⟨serviceBlock_not_uninit _ d hstate, by simpa using hperiod⟩
  | failed n c f cause _ hu _ => exact absurd hu hstate
  | started n c f period _ hu _ _ => exact absurd hu hstate
  | taken n c k _ _ => exact ⟨by simpa using hstate, by simpa using hperiod⟩
  | reset draw ht => exact absurd ht (hr draw)

/-- Settles O19: INIT outside UNINIT answers ERR_STATE, and every change but a reset keeps `InitialisedSince`. -/
theorem periodFixedAfterInit : Obligations.PeriodFixedAfterInit := by
  unfold Obligations.PeriodFixedAfterInit
  exact ⟨fun s freq h => exec_init_of_not_uninit h freq,
    fun s t trace h hrun => hrun.keeps_blk (P := s.blk.InitialisedSince) ⟨h, rfl⟩ BlockChange.initialisedSince⟩

end Sys2Proof.Machine

/-! SUPPORT. The tick (41_tick.md): the timer's count and the bound that holds it, the tick service and its re-arm, and what a run
without a reset keeps of the alarm, the dividers and the signals. -/

namespace Sys2Proof.Machine

/-! ## Equality and ratios in the timer's and the dividers' arithmetic -/

/-- Two counts less than a whole turn of the counter apart show the same value only if they are equal. -/
theorem wrapTimer_eq_iff {p : Params} {a b : Nat} (hle : a ≤ b) (hlt : b < a + 2 ^ p.tw) :
    wrapTimer p a = wrapTimer p b ↔ a = b := by
  constructor
  · intro h
    have hdvd : 2 ^ p.tw ∣ b - a := (Nat.modEq_iff_dvd' hle).mp h
    have := Nat.eq_zero_of_dvd_of_lt hdvd (by omega)
    omega
  · rintro rfl; rfl

/-- A divider that counts up to its ratio and returns to 0 counts modulo its ratio. -/
theorem add_one_mod_of_lt {c d : Nat} (h : c < d) : (c + 1) % d = if c + 1 = d then 0 else c + 1 := by
  split <;> rename_i hd
  · rw [hd, Nat.mod_self]
  · exact Nat.mod_eq_of_lt (by omega)

/-- One release on every `d`-th of `n` ticks makes `n / d` releases, below the limit. -/
theorem release_div_succ {n d limit : Nat} (h : n < limit) :
    (if (n + 1) % d = 0 then min (n / d + 1) limit else n / d) = (n + 1) / d := by
  have hle : n / d ≤ n := Nat.div_le_self n d
  rw [Nat.succ_div]
  simp only [Nat.dvd_iff_mod_eq_zero]
  split <;> omega

/-! ## A timer count (41_tick.md R130, R131) -/

theorem timerCount_tickPending_iff (p : Params) (b : Block) : (timerCount p b).tickPending = true ↔
    b.tickPending = true ∨ (b.state = .running ∧ wrapTimer p (b.now + 1) = b.deadline) := by
  rcases timerCount_cases p b with ⟨hp, e⟩ | ⟨hp, hr, hd, e⟩ | ⟨hp, hn, e⟩ <;> rw [e]
  · simp [hp]
  · simp [hr, hd]
  · simp only [hp, hn]; simp

theorem timerCount_elapsed_of_pending {p : Params} {b : Block} (h : b.tickPending = true) :
    (timerCount p b).elapsed = min (b.elapsed + 1) (timerTop p) := by
  simp [timerCount, h]

/-- A fresh expiry is on time. -/
theorem timerCount_elapsed_of_expiry {p : Params} {b : Block} (h : b.tickPending = false)
    (hexp : (timerCount p b).tickPending = true) : (timerCount p b).elapsed = 0 := by
  rcases timerCount_cases p b with ⟨hp, -⟩ | ⟨-, -, -, e⟩ | ⟨-, -, e⟩
  · simp [h] at hp
  · rw [e]
  · simp [e, h] at hexp

theorem timerCount_of_idle {p : Params} {b : Block} (h : b.tickPending = false) (hd : wrapTimer p (b.now + 1) ≠ b.deadline) :
    timerCount p b = { b with now := wrapTimer p (b.now + 1) } := by
  simp [timerCount, h, hd]

theorem timerCount_of_expiry {p : Params} {b : Block} (h : b.tickPending = false) (hr : b.state = .running)
    (hd : wrapTimer p (b.now + 1) = b.deadline) :
    timerCount p b = { b with now := b.deadline, tickPending := true, elapsed := 0 } := by
  simp [timerCount, h, hr, hd]

/-! ## The turns of the timer and of the alarm (41_tick.md R133, R144) -/

theorem countEnabled_iff (p : Params) (b : Block) : countEnabled p b = true ↔
    ∀ bound, p.latencyBound = some bound → ¬(b.tickPending = true ∧ b.elapsed = bound) := by
  unfold countEnabled
  cases p.latencyBound with
  | none => simp
  | some bound => cases b.tickPending <;> simp

theorem countsNext_iff (s : State) : countsNext s = true ↔ turnOf s = .count ∧ countEnabled s.params s.blk = true := by
  simp [countsNext]

theorem servicesNext_iff (s : State) : servicesNext s = true ↔ turnOf s = .service ∧ s.blk.tickPending = true := by
  simp [servicesNext]

theorem step_of_countsNext {s : State} (h : countsNext s = true) :
    step s = .next { beginTurn s with blk := timerCount s.params s.blk } := by
  obtain ⟨ht, he⟩ := (countsNext_iff s).mp h
  simp [step, ht, runTurn, countTurn, he]

/-- A count turn that ISR_LATENCY_BOUND holds passes (41_tick.md R144). -/
theorem step_of_count_held {s : State} (ht : turnOf s = .count) (he : countEnabled s.params s.blk = false) :
    step s = .next (beginTurn s) := by
  simp [step, ht, runTurn, countTurn, he]

theorem step_of_servicesNext {s : State} (h : servicesNext s = true) :
    step s = .next { beginTurn s with
      blk := serviceBlock s.params (deviceDraw (beginTurn s)) s.blk
      draws := (beginTurn s).draws + deviceDraws (beginTurn s)
      response := none } := by
  obtain ⟨ht, hp⟩ := (servicesNext_iff s).mp h
  rw [step, ht, runTurn_service, exec_tick_pending (by simpa using hp)]
  simp only [beginTurn_params, beginTurn_blk]

theorem blk_of_countsNext {s t : State} (h : step s = .next t) (hc : countsNext s = true) :
    t.blk = timerCount s.params s.blk := by
  rw [step_of_countsNext hc] at h
  rw [← Host.Outcome.next.inj h]

theorem blk_of_servicesNext {s t : State} (h : step s = .next t) (hn : servicesNext s = true) :
    ∃ d, t.blk = serviceBlock s.params d s.blk := by
  rw [step_of_servicesNext hn] at h
  exact ⟨deviceDraw (beginTurn s), by rw [← Host.Outcome.next.inj h]⟩

/-- A turn is one agent's: a count is no service. -/
theorem servicesNext_of_countsNext {s : State} (h : countsNext s = true) : servicesNext s = false := by
  obtain ⟨ht, -⟩ := (countsNext_iff s).mp h
  simp [servicesNext, ht]

/-! ## What the other steps leave alone of the rate generator (10_state.md R39) -/

/-- `b` stands where `b₀` does in every field of the rate generator: life cycle, counter, alarm, lateness. -/
structure Block.SameGenerator (b₀ b : Block) : Prop where
  state : b.state = b₀.state
  err : b.err = b₀.err
  period : b.period = b₀.period
  now : b.now = b₀.now
  deadline : b.deadline = b₀.deadline
  tickPending : b.tickPending = b₀.tickPending
  elapsed : b.elapsed = b₀.elapsed

/-- Outside UNINIT no INIT writes, so only the timer and the tick service change the rate generator, until reset. -/
theorem BlockChange.generator_cases {s : State} {b : Block} (h : BlockChange s b) (hr : ∀ draw, turnOf s ≠ .reset draw)
    (hu : s.blk.state ≠ .uninit) :
    (countsNext s = true ∧ b = timerCount s.params s.blk) ∨
      (servicesNext s = true ∧ ∃ d, b = serviceBlock s.params d s.blk) ∨ s.blk.SameGenerator b := by
  cases h with
  | counted hc => exact .inl ⟨hc, rfl⟩
  | serviced d hn _ => exact .inr (.inl ⟨hn, d, rfl⟩)
  | same | dropped | appended | removed => exact .inr (.inr ⟨rfl, rfl, rfl, rfl, rfl, rfl, rfl⟩)
  | taken n c k _ _ => exact .inr (.inr ⟨by simp, by simp, by simp, by simp, by simp, by simp, by simp⟩)
  | failed n c f cause _ hi _ => exact absurd hi hu
  | started n c f period _ hi _ _ => exact absurd hi hu
  | reset draw ht => exact absurd ht (hr draw)

/-- A step outside UNINIT that is no reset is a count, a service, or leaves the rate generator alone. -/
theorem step_generator_cases {s t : State} (h : step s = .next t) (hr : resetsNext s = false) (hu : s.blk.state ≠ .uninit) :
    (countsNext s = true ∧ servicesNext s = false ∧ t.blk = timerCount s.params s.blk) ∨
      (countsNext s = false ∧ servicesNext s = true ∧ ∃ d, t.blk = serviceBlock s.params d s.blk) ∨
      (countsNext s = false ∧ servicesNext s = false ∧ s.blk.SameGenerator t.blk) := by
  by_cases hc : countsNext s = true
  · exact .inl ⟨hc, servicesNext_of_countsNext hc, blk_of_countsNext h hc⟩
  have hc' : countsNext s = false := by simpa using hc
  by_cases hn : servicesNext s = true
  · exact .inr (.inl ⟨hc', hn, blk_of_servicesNext h hn⟩)
  obtain ⟨-, hb⟩ := step_block_change h
  rcases hb.generator_cases (turn_not_reset hr) hu with ⟨hc₁, -⟩ | ⟨hn₁, -⟩ | hsame
  · exact absurd hc₁ hc
  · exact absurd hn₁ hn
  · exact .inr (.inr ⟨hc', by simpa using hn, hsame⟩)

/-! ## Runs -/

theorem ticks_concat (trace : List State) (m : State) :
    ticks (trace ++ [m]) = ticks trace + if servicesNext m = true then 1 else 0 := by
  simp [ticks, List.countP_append, List.countP_singleton]

theorem counts_concat (trace : List State) (m : State) :
    counts (trace ++ [m]) = counts trace + if countsNext m = true then 1 else 0 := by
  simp [counts, List.countP_append, List.countP_singleton]

theorem Run.params_eq {s t : State} {trace : List State} (h : Run s trace t) : t.params = s.params := by
  induction h with
  | start => rfl
  | next _ _ hstep ih =>
    obtain ⟨hparams, -⟩ := step_block_change hstep
    exact hparams.trans ih

theorem Run.inv {s t : State} {trace : List State} (h : Run s trace t) (hs : s.Inv) : t.Inv := by
  induction h with
  | start => exact hs
  | next _ _ hstep ih => exact stepKeepsInvariant _ _ ih hstep

/-- As `Run.keeps_blk`, for a property of the block that speaks of the parameters. -/
theorem Run.keeps_blk_of_params {P : Block → Prop} {s t : State} {trace : List State} (h : Run s trace t) (h0 : P s.blk)
    (hkeep : ∀ {m : State} {b : Block}, m.params = s.params → BlockChange m b → (∀ draw, turnOf m ≠ .reset draw) →
      P m.blk → P b) : P t.blk := by
  induction h with
  | start => exact h0
  | next hrun hr hstep ih =>
    obtain ⟨-, hb⟩ := step_block_change hstep
    exact hkeep hrun.params_eq hb (turn_not_reset hr) ih

/-! ## A service, under the invariant (41_tick.md R134 to R140) -/

section ServiceFields

variable (p : Params) (d : Bool) (b : Block)

theorem serviceBlock_sigD10_eq : (serviceBlock p d b).sigD10 =
    if b.cnt10 + 1 = p.divA then satInc b.sigD10 p.sigLimit else b.sigD10 := by
  simpa [sig_d10] using serviceBlock_sig p d b .d10

theorem serviceBlock_sigD100_eq : (serviceBlock p d b).sigD100 =
    if b.cnt100 + 1 = p.divB then satInc b.sigD100 p.sigLimit else b.sigD100 := by
  simpa [sig_d100] using serviceBlock_sig p d b .d100

/-- The halting ends of a service and the re-arm, in the order of 41_tick.md R134. -/
theorem serviceBlock_rearm :
    if b.period ≤ b.elapsed then (serviceBlock p d b).state = .halted ∧ (serviceBlock p d b).err = .rearmLate ∧
        (serviceBlock p d b).deadline = b.deadline
    else if d = true then (serviceBlock p d b).state = .halted ∧ (serviceBlock p d b).err = .rearmDevice ∧
        (serviceBlock p d b).deadline = b.deadline
    else (serviceBlock p d b).state = b.state ∧ (serviceBlock p d b).err = b.err ∧
        (serviceBlock p d b).deadline = wrapTimer p (b.deadline + b.period) := by
  rcases serviceBlock_cases p d b with ⟨hl, h⟩ | ⟨hl, hd, h⟩ | ⟨hl, hd, h⟩
  · rwa [if_pos hl]
  · rwa [if_neg hl.not_ge, if_pos hd]
  · rwa [if_neg hl.not_ge, if_neg (by simp [hd])]

end ServiceFields

section ServiceUnderInv

variable {p : Params} {b : Block} (h : b.Inv p) (d : Bool)
include h

theorem serviceBlock_cnt10_mod : (serviceBlock p d b).cnt10 = (b.cnt10 + 1) % p.divA := by
  rw [serviceBlock_cnt10, add_one_mod_of_lt h.cnt10Range]

theorem serviceBlock_cnt100_mod : (serviceBlock p d b).cnt100 = (b.cnt100 + 1) % p.divB := by
  rw [serviceBlock_cnt100, add_one_mod_of_lt h.cnt100Range]

theorem serviceBlock_sigD10 : (serviceBlock p d b).sigD10 =
    if (b.cnt10 + 1) % p.divA = 0 then min (b.sigD10 + 1) p.sigLimit else b.sigD10 := by
  have hrange : b.sigD10 ≤ p.sigLimit := h.sigRange .d10
  rw [serviceBlock_sigD10_eq, satInc_eq_min hrange, add_one_mod_of_lt h.cnt10Range]
  simp

theorem serviceBlock_sigD100 : (serviceBlock p d b).sigD100 =
    if (b.cnt100 + 1) % p.divB = 0 then min (b.sigD100 + 1) p.sigLimit else b.sigD100 := by
  have hrange : b.sigD100 ≤ p.sigLimit := h.sigRange .d100
  rw [serviceBlock_sigD100_eq, satInc_eq_min hrange, add_one_mod_of_lt h.cnt100Range]
  simp

theorem Block.Inv.err_of_running (hr : b.state = .running) : b.err = .none := by
  simpa [Block.causeFits, hr] using h.cause

end ServiceUnderInv

/-- A service that leaves RUNNING leaves the alarm one period on, and was not late. -/
theorem serviceBlock_running {p : Params} {d : Bool} {b : Block} (h : (serviceBlock p d b).state = .running) :
    b.elapsed < b.period ∧ b.state = .running ∧
      (serviceBlock p d b).deadline = wrapTimer p (b.deadline + b.period) := by
  rcases serviceBlock_cases p d b with ⟨-, hs, -⟩ | ⟨-, -, hs, -⟩ | ⟨hl, -, hs, -, hd⟩
  · simp [hs] at h
  · simp [hs] at h
  · exact ⟨hl, hs.symm.trans h, hd⟩

/-! ## The latency bound (41_tick.md R144) -/

/-- The bound `bound` has held the lateness of `b`: it is less than the period, and no re-arm was late. -/
structure Block.OnTime (bound : Nat) (b : Block) : Prop where
  initialised : b.state ≠ .uninit
  boundShort : bound < b.period
  elapsedBound : b.elapsed ≤ bound
  notLate : b.err ≠ .rearmLate

/-- A count that the bound lets pass leaves the lateness within the bound. -/
theorem timerCount_onTime {p : Params} {b : Block} {bound : Nat} (hbound : p.latencyBound = some bound)
    (he : countEnabled p b = true) (h : b.OnTime bound) : (timerCount p b).OnTime bound := by
  obtain ⟨hstate, hshort, helapsed, herr⟩ := h
  have hheld := (countEnabled_iff p b).mp he bound hbound
  refine ⟨by simpa using hstate, by simpa using hshort, ?_, by simpa using herr⟩
  rcases timerCount_cases p b with ⟨hp, e⟩ | ⟨-, -, -, e⟩ | ⟨-, -, e⟩ <;> rw [e]
  · have : b.elapsed ≠ bound := fun heq => hheld ⟨hp, heq⟩
    dsimp only
    omega
  · exact Nat.zero_le bound
  · exact helapsed

/-- A service within the bound is not late, so its re-arm can fail for a device cause only. -/
theorem serviceBlock_onTime {p : Params} {b : Block} {bound : Nat} (d : Bool) (h : b.OnTime bound) :
    (serviceBlock p d b).OnTime bound := by
  obtain ⟨hstate, hshort, helapsed, herr⟩ := h
  refine ⟨serviceBlock_not_uninit p d hstate, by simpa using hshort, by simp, ?_⟩
  rcases serviceBlock_cases p d b with ⟨hl, -⟩ | ⟨-, -, -, e, -⟩ | ⟨-, -, -, e, -⟩
  · omega
  · simp [e]
  · rwa [e]

theorem BlockChange.onTime {s : State} {b : Block} {bound : Nat} (hbound : s.params.latencyBound = some bound)
    (h : BlockChange s b) (hr : ∀ draw, turnOf s ≠ .reset draw) (ht : s.blk.OnTime bound) : b.OnTime bound := by
  rcases h.generator_cases hr ht.initialised with ⟨hc, rfl⟩ | ⟨-, d, rfl⟩ | hsame
  · obtain ⟨-, he⟩ := (countsNext_iff s).mp hc
    exact timerCount_onTime hbound he ht
  · exact serviceBlock_onTime d ht
  · exact ⟨hsame.state ▸ ht.initialised, hsame.period ▸ ht.boundShort, hsame.elapsed ▸ ht.elapsedBound,
      hsame.err ▸ ht.notLate⟩

/-- Settles O23: the bound is the only thing that disables a count, and every change but a reset keeps `OnTime`. -/
theorem latencyBoundPreventsLateness : Obligations.LatencyBoundPreventsLateness := by
  unfold Obligations.LatencyBoundPreventsLateness
  refine ⟨fun s ht hnone => ?_, fun s bound ht hbound hp helapsed => ?_,
    fun s t trace bound hs hr hbound hshort helapsed hrun => ?_⟩
  · have he : countEnabled s.params s.blk = true := (countEnabled_iff _ _).mpr (by simp [hnone])
    exact ⟨_, step_of_countsNext ((countsNext_iff s).mpr ⟨ht, he⟩), timerCount_now _ _⟩
  · exact step_of_count_held ht (by simp [countEnabled, hbound, hp, helapsed])
  · have hstart : s.blk.OnTime bound :=
      ⟨by simp [hr], hshort, helapsed, by simp [hs.block.err_of_running hr]⟩
    have hend : t.blk.OnTime bound :=
      hrun.keeps_blk_of_params hstart fun hparams hb => hb.onTime (hparams ▸ hbound)
    exact hend.notLate

/-! ## A failed re-arm is final (41_tick.md R140) -/

/-- `b` is HALTED with the cause and the alarm of `b₀`, with no expiry pending and no signal count above its count in `b₀`. -/
structure Block.HaltedSince (b₀ b : Block) : Prop where
  state : b.state = .halted
  cause : b.err = b₀.err
  deadline : b.deadline = b₀.deadline
  notPending : b.tickPending = false
  notReleased : ∀ k, b.sig k ≤ b₀.sig k

theorem Block.Inv.haltedSince {p : Params} {b : Block} (h : b.Inv p) (hh : b.state = .halted) : b.HaltedSince b := by
  refine ⟨hh, rfl, rfl, ?_, fun _ => le_rfl⟩
  by_contra hp
  have hrun := h.pendingRunning (by simpa using hp)
  simp [hh] at hrun

/-- No service runs while none is pending, so no signal count rises. -/
theorem BlockChange.sig_le_of_not_pending {s : State} {b : Block} (h : BlockChange s b) (hp : s.blk.tickPending = false)
    (k : Signal) : b.sig k ≤ s.blk.sig k := by
  refine not_lt.mp fun hk => ?_
  obtain ⟨_, hn, -⟩ := h.signal_raised hk
  simp [servicesNext, hp] at hn

/-- In HALTED no service runs and no INIT writes, so no change but a reset leaves it: the block never restarts itself. -/
theorem BlockChange.haltedSince {s : State} {b₀ b : Block} (h : BlockChange s b) (hr : ∀ draw, turnOf s ≠ .reset draw)
    (hh : b₀.HaltedSince s.blk) : b₀.HaltedSince b := by
  obtain ⟨hstate, hcause, hdeadline, hpend, hsig⟩ := hh
  have hle := fun k => (h.sig_le_of_not_pending hpend k).trans (hsig k)
  rcases h.generator_cases hr (by simp [hstate]) with ⟨-, rfl⟩ | ⟨hn, -⟩ | hsame
  · exact ⟨by simpa using hstate, by simpa using hcause, by simpa using hdeadline,
      timerCount_not_pending _ (by simp [hstate]) hpend, hle⟩
  · simp [servicesNext, hpend] at hn
  · exact ⟨hsame.state.trans hstate, hsame.err.trans hcause, hsame.deadline.trans hdeadline,
      hsame.tickPending.trans hpend, hle⟩

/-- RDSTAT shows the life cycle in bits 1:0 of STATUS (10_state.md R33). -/
theorem statusView_state (b : Block) : (statusView b).extractLsb' 0 2 = b.state.code :=
  BitVec.extractLsb'_append_eq_right

/-- A TAKE takes one release away, or holds on a zero count (43_signals_inspect.md R190, R191). -/
theorem exec_take_of_pos {k : Signal} {s : State} (h : 0 < s.blk.sig k) : ∃ u, exec (.take .task k) s = .next u ∧
    u.response = some ⟨.ok, 0, none⟩ ∧ u.blk.sig k + 1 = s.blk.sig k := by
  refine ⟨takeSignal k s, by rw [exec_take, checkCtx_of_allowed rfl], ?_⟩
  rcases takeSignal_cases k s with ⟨hz, -⟩ | ⟨-, e⟩
  · omega
  · rw [e, respond_blk, setSig_sig, if_pos rfl]
    exact ⟨rfl, by omega⟩

theorem exec_take_of_zero {k : Signal} {s : State} (h : s.blk.sig k = 0) : exec (.take .task k) s = .next (hold s) := by
  rw [exec_take, checkCtx_of_allowed rfl, takeSignal, if_pos h]

/-- An ENQ finds room below QCAP (42_queue.md R160). -/
theorem exec_enq_of_room {s : State} (h : s.blk.queue.length < s.params.qcap) (c : Ctx) {l : BitVec 16}
    {payload : List Byte} (hl : payload.length = l.toNat) :
    ∃ u, exec (.enq c l payload) s = .next u ∧ u.response = some ⟨.ok, 1, none⟩ := by
  refine ⟨_, exec_enq hl s, ?_⟩
  rw [enqueue, if_neg h.ne, respond_response]

/-- A DEQ gets the oldest record (42_queue.md R165). -/
theorem exec_deq_of_cons {s : State} {r : List Byte} {rest : List (List Byte)} (h : s.blk.queue = r :: rest) :
    ∃ u, exec (.deq .worker) s = .next u ∧ u.response = some ⟨.ok, 0, some r⟩ := by
  refine ⟨dequeue s, by rw [exec_deq, checkCtx_of_allowed rfl], ?_⟩
  rcases dequeue_cases s with ⟨hn, -⟩ | ⟨r', rest', hq, e⟩
  · simp [h] at hn
  · obtain ⟨rfl, -⟩ := List.cons.inj (h.symm.trans hq)
    rw [e, respond_response]

/-- What a service records when it halts: its cause, the alarm where it was. -/
theorem serviceBlock_of_halted {p : Params} {d : Bool} {b : Block} (hr : b.state = .running)
    (hh : (serviceBlock p d b).state = .halted) :
    (serviceBlock p d b).err = (if b.period ≤ b.elapsed then .rearmLate else .rearmDevice) ∧
      (serviceBlock p d b).deadline = b.deadline := by
  rcases serviceBlock_cases p d b with ⟨hl, -, he, hd⟩ | ⟨hl, -, -, he, hd⟩ | ⟨-, -, hs, -⟩
  · exact ⟨by rw [if_pos hl, he], hd⟩
  · exact ⟨by rw [if_neg hl.not_ge, he], hd⟩
  · simp [hs, hr] at hh

/-- Settles O30: the halting service by its fields; then every change but a reset keeps `HaltedSince`, and TAKE, ENQ and DEQ do
not look at the life cycle. -/
theorem haltLastsUntilReset : Obligations.HaltLastsUntilReset := by
  unfold Obligations.HaltLastsUntilReset
  refine ⟨fun s t hs hp hx hh => ?_, fun s t trace hs hh hrun => ?_⟩
  · rw [exec_tick_pending hp] at hx
    obtain rfl := Host.Outcome.next.inj hx
    obtain ⟨herr, hdeadline⟩ := serviceBlock_of_halted (hs.block.pendingRunning hp) hh
    exact ⟨herr, hdeadline, serviceBlock_sigBase hs.block _, serviceBlock_cnt10_mod hs.block _,
      serviceBlock_cnt100_mod hs.block _, serviceBlock_sigD10 hs.block _, serviceBlock_sigD100 hs.block _⟩
  · obtain ⟨hstate, hcause, hdeadline, hpend, hsig⟩ : s.blk.HaltedSince t.blk :=
      hrun.keeps_blk (hs.block.haltedSince hh) BlockChange.haltedSince
    exact ⟨hstate, hcause, hdeadline, hpend,
      fun c => ⟨statusView t.blk, exec_rdstat c t, by rw [statusView_state, hstate]; rfl, by rw [statusView_err, hcause]⟩,
      fun k => ⟨hsig k, exec_take_of_pos, exec_take_of_zero⟩, fun c l payload hl hroom => exec_enq_of_room hroom c hl,
      fun r rest => exec_deq_of_cons⟩

/-! ## No drift (41_tick.md R141) -/

/-- Where the counter and the alarm of a RUNNING block stand after `n` services and `c` counts since `b₀`, the block just after
INIT. -/
structure Block.OnSchedule (p : Params) (b₀ : Block) (n c : Nat) (b : Block) : Prop where
  period : b.period = b₀.period
  now : b.now = wrapTimer p (b₀.now + c)
  deadline : b.deadline = wrapTimer p (b₀.now + (n + 1) * b₀.period)
  served : n * b₀.period ≤ c
  pending : b.tickPending = true ↔ (n + 1) * b₀.period ≤ c
  lateness : b.tickPending = true → b.elapsed = min (c - (n + 1) * b₀.period) (timerTop p)

section OnSchedule

variable {p : Params} {b₀ b : Block} {n c : Nat}

theorem Block.Inv.onSchedule (h : b.Inv p) (hr : b.state = .running) (hp : b.tickPending = false)
    (hd : b.deadline = wrapTimer p (b.now + b.period)) : b.OnSchedule p 0 0 b := by
  have hpos := h.periodPositive hr
  exact ⟨rfl, (wrapTimer_of_le h.nowRange).symm, by simpa using hd, by simp, by simp [hp]; omega, by simp [hp]⟩

theorem Block.OnSchedule.of_sameGenerator (h : b₀.OnSchedule p n c b) {b' : Block} (hs : b.SameGenerator b') :
    b₀.OnSchedule p n c b' :=
  ⟨hs.period ▸ h.period, hs.now ▸ h.now, hs.deadline ▸ h.deadline, h.served, hs.tickPending ▸ h.pending,
    hs.tickPending ▸ hs.elapsed ▸ h.lateness⟩

/-- While none pends the alarm is less than a turn of the counter ahead, so exactly the count that makes up whole periods reaches
it. -/
theorem timerCount_onSchedule (h : b₀.OnSchedule p n c b) (hr : b.state = .running)
    (hrange : b₀.period ≤ timerTop p) : b₀.OnSchedule p n (c + 1) (timerCount p b) := by
  obtain ⟨hperiod, hnow, hdeadline, hserved, hpending, hlate⟩ := h
  have hnow' : wrapTimer p (b.now + 1) = wrapTimer p (b₀.now + (c + 1)) := by
    rw [hnow, wrapTimer_wrapTimer_add, Nat.add_assoc]
  have hsucc : (n + 1) * b₀.period = n * b₀.period + b₀.period := Nat.succ_mul n _
  have hturn := timerTop_succ p
  have hpending' : (timerCount p b).tickPending = true ↔ (n + 1) * b₀.period ≤ c + 1 := by
    rw [timerCount_tickPending_iff, hnow', hdeadline, hpending]
    by_cases hp : (n + 1) * b₀.period ≤ c
    · simp only [hp, true_or, true_iff]; omega
    · rw [wrapTimer_eq_iff (by omega) (by omega)]
      simp only [hp, hr, false_or, true_and]; omega
  refine ⟨by simpa using hperiod, by simpa using hnow', by simpa using hdeadline, by omega, hpending', fun hexp => ?_⟩
  by_cases hp : b.tickPending = true
  · rw [timerCount_elapsed_of_pending hp, hlate hp]
    have := hpending.mp hp
    omega
  · rw [timerCount_elapsed_of_expiry (by simpa using hp) hexp]
    have := hpending'.mp hexp
    have := mt hpending.mpr hp
    omega

/-- A service that leaves the block RUNNING was less than a period late, so the next expiry is still to come, one period after
the last: the lateness leaves no trace. -/
theorem serviceBlock_onSchedule (h : b₀.OnSchedule p n c b) (hp : b.tickPending = true) {d : Bool}
    (hr : (serviceBlock p d b).state = .running) (hrange : b₀.period ≤ timerTop p) :
    b₀.OnSchedule p (n + 1) c (serviceBlock p d b) := by
  obtain ⟨hperiod, hnow, hdeadline, hserved, hpending, hlate⟩ := h
  obtain ⟨hontime, -, hdeadline'⟩ := serviceBlock_running hr
  have hexpired := hpending.mp hp
  rw [hlate hp, hperiod] at hontime
  have hsucc : (n + 1 + 1) * b₀.period = (n + 1) * b₀.period + b₀.period := Nat.succ_mul _ _
  refine ⟨by simpa using hperiod, by simpa using hnow, ?_, hexpired, ?_, by simp⟩
  · rw [hdeadline', hdeadline, hperiod, wrapTimer_wrapTimer_add, hsucc, Nat.add_assoc]
  · simp only [serviceBlock_tickPending, Bool.false_eq_true, false_iff]
    omega

end OnSchedule

/-- A step outside UNINIT that leads to RUNNING starts in RUNNING. -/
theorem running_of_step_running {s t : State} (h : step s = .next t) (hreset : resetsNext s = false)
    (hu : s.blk.state ≠ .uninit) (hr : t.blk.state = .running) : s.blk.state = .running := by
  rcases step_generator_cases h hreset hu with ⟨-, -, e⟩ | ⟨-, -, d, e⟩ | ⟨-, -, hsame⟩
  · simpa [e] using hr
  · obtain ⟨-, hs, -⟩ := serviceBlock_running (e ▸ hr)
    exact hs
  · exact hsame.state ▸ hr

/-- The counter and the alarm keep the schedule of the start as long as the block stays RUNNING. -/
theorem Run.onSchedule {s t : State} {trace : List State} (hs : s.Inv) (hr : s.blk.state = .running)
    (hp : s.blk.tickPending = false) (hd : s.blk.deadline = wrapTimer s.params (s.blk.now + s.blk.period))
    (h : Run s trace t) (hrun : t.blk.state = .running) :
    s.blk.OnSchedule s.params (ticks trace) (counts trace) t.blk := by
  induction h with
  | start => exact hs.block.onSchedule hr hp hd
  | @next trace m t h hreset hstep ih =>
    have hrange := hs.block.periodRange
    obtain ⟨hu, -⟩ : s.blk.InitialisedSince m.blk :=
      h.keeps_blk (P := s.blk.InitialisedSince) ⟨by simp [hr], rfl⟩ BlockChange.initialisedSince
    have hm := running_of_step_running hstep hreset hu hrun
    rw [ticks_concat, counts_concat]
    rcases step_generator_cases hstep hreset hu with ⟨hc, hn, e⟩ | ⟨hc, hn, d, e⟩ | ⟨hc, hn, hsame⟩
    · rw [e, h.params_eq]
      simpa [hc, hn] using timerCount_onSchedule (ih hm) hm hrange
    · obtain ⟨-, hpend⟩ := (servicesNext_iff m).mp hn
      rw [e, h.params_eq] at hrun ⊢
      simpa [hc, hn] using serviceBlock_onSchedule (ih hm) hpend hrun hrange
    · simpa [hc, hn] using (ih hm).of_sameGenerator hsame

/-- Settles O32: a run keeps the block on the schedule of its start. -/
theorem noDriftWhateverTheJitter : Obligations.NoDriftWhateverTheJitter := by
  unfold Obligations.NoDriftWhateverTheJitter
  intro s t trace hs hr hp hd h hrun
  obtain ⟨hperiod, hnow, hdeadline, hserved, hpending, hlate⟩ := Run.onSchedule hs hr hp hd h hrun
  exact ⟨hperiod, hnow, hdeadline, hserved, hpending, hlate⟩

/-! ## Phase lock (41_tick.md R142) -/

/-- One step moves the dividers on by one at a service and not at all otherwise. -/
theorem step_dividers {s t : State} (hs : s.Inv) (h : step s = .next t) (hr : resetsNext s = false) :
    t.blk.cnt10 = (s.blk.cnt10 + if servicesNext s = true then 1 else 0) % s.params.divA ∧
      t.blk.cnt100 = (s.blk.cnt100 + if servicesNext s = true then 1 else 0) % s.params.divB := by
  by_cases hn : servicesNext s = true
  · obtain ⟨d, e⟩ := blk_of_servicesNext h hn
    rw [e, if_pos hn]
    exact ⟨serviceBlock_cnt10_mod hs.block d, serviceBlock_cnt100_mod hs.block d⟩
  · obtain ⟨-, hb⟩ := step_block_change h
    have hkept := mt (hb.dividers_written (turn_not_reset hr)) hn
    push Not at hkept
    obtain ⟨h10, h100⟩ := hkept
    rw [if_neg hn, h10, h100]
    exact ⟨(Nat.mod_eq_of_lt hs.block.cnt10Range).symm, (Nat.mod_eq_of_lt hs.block.cnt100Range).symm⟩

/-- The dividers count the services of a run modulo their ratios. -/
theorem Run.dividers {s t : State} {trace : List State} (h : Run s trace t) (hs : s.Inv) :
    t.blk.cnt10 = (s.blk.cnt10 + ticks trace) % s.params.divA ∧
      t.blk.cnt100 = (s.blk.cnt100 + ticks trace) % s.params.divB := by
  induction h with
  | start => exact ⟨(Nat.mod_eq_of_lt hs.block.cnt10Range).symm, (Nat.mod_eq_of_lt hs.block.cnt100Range).symm⟩
  | next hrun hr hstep ih =>
    obtain ⟨h10, h100⟩ := ih
    have hone := step_dividers (hrun.inv hs) hstep hr
    rw [hrun.params_eq, h10, h100, Nat.mod_add_mod, Nat.mod_add_mod] at hone
    rwa [ticks_concat, ← Nat.add_assoc, ← Nat.add_assoc]

theorem Run.dividers_from_reset {p : Params} (hp : p.wf = true) {draw : Nat} {ready : Bool} {agenda : List Turn}
    {trace : List State} {t : State} (h : Run (State.resetWith p draw ready agenda) trace t) :
    t.blk.cnt10 = ticks trace % p.divA ∧ t.blk.cnt100 = ticks trace % p.divB := by
  simpa [State.resetWith] using h.dividers (resetWith_inv hp draw ready agenda)

/-- A service's releases, by how many services came before it. -/
theorem serviceBlock_releases {p : Params} {b : Block} (h : b.Inv p) (d : Bool) {n : Nat} (h10 : b.cnt10 = n % p.divA)
    (h100 : b.cnt100 = n % p.divB) :
    (serviceBlock p d b).sigBase = min (b.sigBase + 1) p.sigLimit ∧
      (serviceBlock p d b).sigD10 = (if (n + 1) % p.divA = 0 then min (b.sigD10 + 1) p.sigLimit else b.sigD10) ∧
      (serviceBlock p d b).sigD100 = (if (n + 1) % p.divB = 0 then min (b.sigD100 + 1) p.sigLimit else b.sigD100) := by
  refine ⟨serviceBlock_sigBase h d, ?_, ?_⟩
  · rw [serviceBlock_sigD10 h d, h10, Nat.mod_add_mod]
  · rw [serviceBlock_sigD100 h d, h100, Nat.mod_add_mod]

/-- Settles O33: the dividers of a run from reset are the number of services, and they say what the next service releases. -/
theorem phaseLockFromReset : Obligations.PhaseLockFromReset := by
  unfold Obligations.PhaseLockFromReset
  intro p draw ready agenda trace m t hp hrun hstep
  obtain ⟨h10, h100⟩ := hrun.dividers_from_reset hp
  refine ⟨h10, h100, fun hn => ?_⟩
  have hm := (hrun.inv (resetWith_inv hp draw ready agenda)).block
  obtain ⟨d, e⟩ := blk_of_servicesNext hstep hn
  rw [hrun.params_eq] at e hm
  rw [e]
  exact serviceBlock_releases hm d h10 h100

/-- The signals hold the releases of `n` services and no TAKE. -/
structure Block.ReleasedBy (p : Params) (n : Nat) (b : Block) : Prop where
  base : b.sigBase = n
  d10 : b.sigD10 = n / p.divA
  d100 : b.sigD100 = n / p.divB

theorem Block.ReleasedBy.of_sig_eq {p : Params} {n : Nat} {b b' : Block} (h : b.ReleasedBy p n)
    (hs : ∀ k, b'.sig k = b.sig k) : b'.ReleasedBy p n :=
  ⟨(hs .base).trans h.base, (hs .d10).trans h.d10, (hs .d100).trans h.d100⟩

/-- Below SIG_LIMIT no release is lost. -/
theorem serviceBlock_releasedBy {p : Params} {n : Nat} {b : Block} (h : b.ReleasedBy p n) (hb : b.Inv p) (d : Bool)
    (h10 : b.cnt10 = n % p.divA) (h100 : b.cnt100 = n % p.divB) (hlt : n < p.sigLimit) :
    (serviceBlock p d b).ReleasedBy p (n + 1) := by
  obtain ⟨hbase, hd10, hd100⟩ := serviceBlock_releases hb d h10 h100
  rw [h.base] at hbase
  rw [h.d10, release_div_succ hlt] at hd10
  rw [h.d100, release_div_succ hlt] at hd100
  exact ⟨by omega, hd10, hd100⟩

/-- A step that is no service, no TAKE and no reset leaves the signals alone. -/
theorem step_sig_kept {s t : State} (h : step s = .next t) (hr : resetsNext s = false) (hn : servicesNext s = false)
    (htake : ∀ c k n, instrNext s ≠ some (n, .take c k)) (k : Signal) : t.blk.sig k = s.blk.sig k := by
  obtain ⟨-, hb⟩ := step_block_change h
  by_contra hk
  rcases hb.signal_written (turn_not_reset hr) k hk with hn' | ⟨n, c, hi⟩
  · simp [hn] at hn'
  · exact htake c k n hi

theorem Run.releasedBy {p : Params} (hp : p.wf = true) {draw : Nat} {ready : Bool} {agenda : List Turn}
    {trace : List State} {t : State} (h : Run (State.resetWith p draw ready agenda) trace t)
    (htake : ∀ m ∈ trace, ∀ c k, ∀ n, instrNext m ≠ some (n, .take c k)) (hlimit : ticks trace ≤ p.sigLimit) :
    t.blk.ReleasedBy p (ticks trace) := by
  induction h with
  | start => exact ⟨rfl, (Nat.zero_div _).symm, (Nat.zero_div _).symm⟩
  | @next trace m t hrun hr hstep ih =>
    rw [ticks_concat] at hlimit ⊢
    have hm := ih (fun m' hm' => htake m' (List.mem_append_left _ hm')) (by omega)
    by_cases hn : servicesNext m = true
    · obtain ⟨h10, h100⟩ := hrun.dividers_from_reset hp
      have hb := (hrun.inv (resetWith_inv hp draw ready agenda)).block
      obtain ⟨d, e⟩ := blk_of_servicesNext hstep hn
      rw [hrun.params_eq] at e hb
      rw [if_pos hn] at hlimit ⊢
      rw [e]
      exact serviceBlock_releasedBy hm hb d h10 h100 hlimit
    · rw [if_neg hn]
      exact hm.of_sig_eq (step_sig_kept hstep hr (by simpa using hn) (htake m (by simp)))

/-- Settles O34: each service adds its releases to those counted so far, and no other step but a TAKE writes a signal. -/
theorem releaseCountsFromReset : Obligations.ReleaseCountsFromReset := by
  unfold Obligations.ReleaseCountsFromReset
  intro p draw ready agenda trace t hp hrun htake hlimit
  obtain ⟨hbase, hd10, hd100⟩ := hrun.releasedBy hp htake hlimit
  exact ⟨hbase, hd10, hd100⟩

/-! ## The expiry (41_tick.md R130, R131) -/

/-- Nothing but a count that reaches the alarm makes an expiry pending. -/
theorem BlockChange.not_pending {s : State} {b : Block} (h : BlockChange s b) (hc : countsNext s = false)
    (hp : s.blk.tickPending = false) : b.tickPending = false := by
  cases h with
  | counted hn => simp [hc] at hn
  | serviced d _ _ => exact serviceBlock_tickPending _ d _
  | same | failed | dropped | appended | removed => exact hp
  | started | reset => rfl
  | taken n c k _ _ => simpa using hp

/-- Settles O22: a count by its three cases; no other step makes an expiry pending. -/
theorem expiryExactlyAtTheDeadline : Obligations.ExpiryExactlyAtTheDeadline := by
  unfold Obligations.ExpiryExactlyAtTheDeadline
  refine ⟨fun s t h hp => ?_, fun s t h hp hc => ?_⟩
  · by_cases hc : countsNext s = true
    · rw [blk_of_countsNext h hc]
      refine ⟨?_, timerCount_elapsed_of_expiry hp⟩
      rw [timerCount_tickPending_iff]
      simp [hp, hc, wrapTimer]
    · obtain ⟨-, hb⟩ := step_block_change h
      have hnone := hb.not_pending (by simpa using hc) hp
      simp [hnone, hc]
  · rw [blk_of_countsNext h hc]
    exact ⟨(timerCount_tickPending_iff _ _).mpr (.inl hp), timerCount_elapsed_of_pending hp⟩

/-- While none is pending the agenda's count is taken, whatever ISR_LATENCY_BOUND says. -/
theorem step_count_of_idle {s : State} {rest : List Turn} (ha : s.agenda = .count :: rest)
    (hp : s.blk.tickPending = false) :
    step s = .next { s with blk := timerCount s.params s.blk, agenda := rest, response := none } := by
  have hc : countsNext s = true :=
    (countsNext_iff s).mpr ⟨by simp [turnOf, ha], countEnabled_of_not_pending _ hp⟩
  rw [step_of_countsNext hc, beginTurn, ha]

/-- Settles O24, by induction on the counts that remain: each but the last stops short of the alarm. -/
theorem expiryAfterTheRemainingCounts : Obligations.ExpiryAfterTheRemainingCounts := by
  unfold Obligations.ExpiryAfterTheRemainingCounts
  intro s d rest hr hp h1 hd hdeadline ha
  induction d generalizing s with
  | zero => omega
  | succ d ih =>
    have hstep := step_count_of_idle ha hp
    rw [steps, hstep]
    have hnext : wrapTimer s.params (s.blk.now + 1) = s.blk.deadline ↔ d = 0 := by
      rw [← hdeadline]
      exact (wrapTimer_eq_iff (by omega) (by omega)).trans (by omega)
    by_cases hlast : d = 0
    · subst hlast
      rw [timerCount_of_expiry hp hr (hnext.mpr rfl)]
      rfl
    · rw [timerCount_of_idle hp (mt hnext.mp hlast)]
      refine ih _ hr hp (by omega) (Nat.le_of_succ_le hd) ?_ rfl
      have hwrap := wrapTimer_wrapTimer_add s.params (s.blk.now + 1) d
      rw [Nat.add_assoc, Nat.add_comm 1 d] at hwrap
      exact hwrap.trans hdeadline

/-- Settles O21: the turn's count is enabled, and `timerCount` is the pseudocode. -/
theorem timerCountStep : Obligations.TimerCountStep := by
  unfold Obligations.TimerCountStep
  intro s ht hfree
  exact step_of_countsNext ((countsNext_iff s).mpr ⟨ht, (countEnabled_iff _ _).mpr hfree⟩)

/-! ## The tick service (41_tick.md R134 to R139) -/

/-- Settles O25: each field of a service by its own lemma, and the two decodings of the TICK word. -/
theorem tickSemantics : Obligations.TickSemantics := by
  unfold Obligations.TickSemantics
  refine ⟨fun s hp => ?_, fun s hp => exec_tick_idle hp, by decide, by decide⟩
  refine ⟨serviceBlock s.params (deviceDraw s) s.blk, exec_tick_pending hp, serviceBlock_tickPending _ _ _,
    serviceBlock_elapsed _ _ _, serviceBlock_sig _ _ _ .base, ?_, ?_, serviceBlock_rearm _ _ _, serviceBlock_period _ _ _,
    serviceBlock_now _ _ _, serviceBlock_queue _ _ _, serviceBlock_drop _ _ _⟩
  · rw [serviceBlock_cnt10, serviceBlock_sigD10_eq]
    split
    · exact ⟨rfl, rfl⟩
    · exact ⟨rfl, rfl⟩
  · rw [serviceBlock_cnt100, serviceBlock_sigD100_eq]
    split
    · exact ⟨rfl, rfl⟩
    · exact ⟨rfl, rfl⟩

/-- Settles O26: the release comes before the re-arm, so a late one does not take it back. -/
theorem everyTickReleasesBase : Obligations.EveryTickReleasesBase := by
  unfold Obligations.EveryTickReleasesBase
  intro s hs hp
  refine ⟨_, exec_tick_pending hp, serviceBlock_sigBase hs.block _, fun hlate => ?_⟩
  have h := serviceBlock_rearm s.params (deviceDraw s) s.blk
  rw [if_pos hlate] at h
  obtain ⟨hhalted, -⟩ := h
  exact hhalted

/-- The dividers and releases of a service are functions of the dividers and signals alone. -/
theorem serviceBlock_releases_congr (p : Params) (d d' : Bool) {b b' : Block} (h10 : b.cnt10 = b'.cnt10)
    (h100 : b.cnt100 = b'.cnt100) (hsig : ∀ k, b.sig k = b'.sig k) :
    (serviceBlock p d b).cnt10 = (serviceBlock p d' b').cnt10 ∧
      (serviceBlock p d b).cnt100 = (serviceBlock p d' b').cnt100 ∧
      ∀ k, (serviceBlock p d b).sig k = (serviceBlock p d' b').sig k := by
  refine ⟨by simp [h10], by simp [h100], fun k => ?_⟩
  rw [serviceBlock_sig, serviceBlock_sig, h10, h100, hsig]

/-- Settles O27: each divider and its signal modulo the ratio, and what they are functions of. -/
theorem dividersCountTicksOnly : Obligations.DividersCountTicksOnly := by
  unfold Obligations.DividersCountTicksOnly
  refine ⟨fun s hs hp => ⟨_, exec_tick_pending hp, serviceBlock_cnt10_mod hs.block _, serviceBlock_cnt100_mod hs.block _,
    serviceBlock_sigD10 hs.block _, serviceBlock_sigD100 hs.block _⟩, fun s s' hparams hp hp' h10 h100 hsig => ?_⟩
  refine ⟨_, _, exec_tick_pending hp, exec_tick_pending hp', ?_⟩
  rw [hparams]
  exact serviceBlock_releases_congr s'.params (deviceDraw s) (deviceDraw s') h10 h100 hsig

/-- Under the invariant a service ends HALTED, late or refused by the device, or RUNNING with no cause and the alarm one period
on. -/
theorem serviceBlock_cases_of_inv {p : Params} {b : Block} (h : b.Inv p) (hp : b.tickPending = true) (d : Bool) :
    (b.period ≤ b.elapsed ∧ (serviceBlock p d b).state = .halted ∧ (serviceBlock p d b).err = .rearmLate ∧
        (serviceBlock p d b).deadline = b.deadline) ∨
      (b.elapsed < b.period ∧ d = true ∧ (serviceBlock p d b).state = .halted ∧
        (serviceBlock p d b).err = .rearmDevice ∧ (serviceBlock p d b).deadline = b.deadline) ∨
      (b.elapsed < b.period ∧ d = false ∧ (serviceBlock p d b).state = .running ∧ (serviceBlock p d b).err = .none ∧
        (serviceBlock p d b).deadline = wrapTimer p (b.deadline + b.period)) := by
  have hr := h.pendingRunning hp
  have hcases := serviceBlock_cases p d b
  rwa [hr, h.err_of_running hr] at hcases

/-- After a service one count short of late, the very next count reaches the new alarm. -/
theorem expiry_after_latest_service {p : Params} {b : Block} (h : b.Inv p) (hp : b.tickPending = true)
    (hshort : b.elapsed + 1 = b.period) {d : Bool} (hr : (serviceBlock p d b).state = .running) :
    (timerCount p (serviceBlock p d b)).tickPending = true := by
  obtain ⟨-, -, hdeadline⟩ := serviceBlock_running hr
  have hperiod := h.periodRange
  rw [timerCount_tickPending_iff]
  refine .inr ⟨hr, ?_⟩
  rw [hdeadline, serviceBlock_now, h.lateness hp (by omega), wrapTimer_wrapTimer_add, Nat.add_assoc, hshort]

theorem deviceDraw_of_never {s : State} (h : s.params.rearmMayFail = false) : deviceDraw s = false := by
  simp [deviceDraw, h]

theorem deviceDraw_of_may {s : State} (h : s.params.rearmMayFail = true) : deviceDraw s = Config.freeBool s.draws := by
  simp [deviceDraw, h]

/-- How the end of a service shows in the life cycle and the alarm. -/
theorem serviceBlock_rearm_of_inv {p : Params} {b : Block} (h : b.Inv p) (hp : b.tickPending = true) (d : Bool) :
    (b.period ≤ b.elapsed ↔ (serviceBlock p d b).state = .halted ∧ (serviceBlock p d b).err = .rearmLate) ∧
      ((serviceBlock p d b).state = .halted → (serviceBlock p d b).deadline = b.deadline) ∧
      ((serviceBlock p d b).state ≠ .halted → (serviceBlock p d b).state = .running ∧
        (serviceBlock p d b).deadline = wrapTimer p (b.deadline + b.period)) ∧
      (b.elapsed < b.period → d = false → (serviceBlock p d b).state = .running) := by
  rcases serviceBlock_cases_of_inv h hp d with ⟨hl, hs, he, hd⟩ | ⟨hl, hdraw, hs, he, hd⟩ | ⟨hl, hdraw, hs, he, hd⟩
  · simp [hs, he, hd, hl]
  · subst hdraw
    simp [hs, he, hd, hl]
  · simp [hs, hd, hl]

/-- Settles O28: by the three ends of a service; one count short of late, by the meaning of `elapsed`. -/
theorem rearmFromThePreviousDeadline : Obligations.RearmFromThePreviousDeadline := by
  unfold Obligations.RearmFromThePreviousDeadline
  intro s hs hp
  obtain ⟨hlate, hhalted, hrearmed, hontime⟩ := serviceBlock_rearm_of_inv hs.block hp (deviceDraw s)
  exact ⟨_, exec_tick_pending hp, hlate, hhalted, hrearmed, fun hl hnever => hontime hl (deviceDraw_of_never hnever),
    fun hshort hr => ⟨countEnabled_of_not_pending _ (serviceBlock_tickPending _ _ _),
      expiry_after_latest_service hs.block hp hshort hr⟩⟩

/-- Settles O29: of the three ends of a service lateness is excluded, and the draw decides between the other two. -/
theorem rearmDeviceFailure : Obligations.RearmDeviceFailure := by
  unfold Obligations.RearmDeviceFailure
  intro s hs hp hl
  refine ⟨_, exec_tick_pending hp, ?_⟩
  dsimp only
  rcases serviceBlock_cases_of_inv hs.block hp (deviceDraw s) with ⟨hl', -⟩ | ⟨-, hdraw, hstate, herr, hd⟩ |
    ⟨-, hdraw, hstate, herr, -⟩
  · omega
  · refine ⟨fun hn => by simp [deviceDraw_of_never hn] at hdraw, fun hm => ?_⟩
    rw [if_pos ((deviceDraw_of_may hm).symm.trans hdraw)]
    exact ⟨hstate, by rw [herr]; rfl, hd⟩
  · refine ⟨fun _ => ⟨hstate, herr⟩, fun hm => ?_⟩
    rw [if_neg (by simp [← deviceDraw_of_may hm, hdraw])]
    exact ⟨hstate, herr⟩

end Sys2Proof.Machine

/-! SUPPORT. The queue (42_queue.md): the record an ENQ makes, what ENQ and DEQ do by what they find, on what they depend, how
a held DEQ comes to its record, and how a queue fills, overflows and drains. -/

namespace Sys2Proof.Machine

/-! ## The record (42_queue.md R160, R162, R163) -/

/-- The padding bytes are drawn in order. -/
theorem padding_getElem? {n i : Nat} (d : Nat) (h : i < n) : (padding d n)[i]? = some (Config.freeByte (d + i)) := by
  induction n generalizing d i with
  | zero => omega
  | succ n ih =>
    cases i with
    | zero => rfl
    | succ i => rw [padding, List.getElem?_cons_succ, ih (d + 1) (by omega), Nat.add_right_comm, Nat.add_assoc]

/-- Past the payload bytes that ENQ stores, a record holds the padding. -/
theorem recordOf_padding (p : Params) {len : Nat} {payload : List Byte} (h : payload.length = len) (d : Nat) {i : Nat}
    (hlo : min len p.recBytes ≤ i) (hhi : i < p.recBytes) :
    (recordOf p len payload d)[i]? = some (Config.freeByte (d + (i - min len p.recBytes))) := by
  have hstored : (payload.take (storedLen p len)).length = min len p.recBytes := by simp [storedLen, h]
  rw [recordOf, List.getElem?_append_right (by omega), hstored]
  exact padding_getElem? d (by simp only [storedLen]; omega)

/-- A payload of REC bytes or more fills the record. -/
theorem recordOf_of_recBytes_le {p : Params} {len : Nat} (h : p.recBytes ≤ len) (payload : List Byte) (d : Nat) :
    recordOf p len payload d = payload.take p.recBytes := by
  simp [recordOf, storedLen, min_eq_right h, padding]

/-- A payload that fits stands whole at the front of the record. -/
theorem recordOf_of_le_recBytes {p : Params} {payload : List Byte} (h : payload.length ≤ p.recBytes) (d : Nat) :
    recordOf p payload.length payload d = payload ++ padding d (p.recBytes - payload.length) := by
  simp [recordOf, storedLen, min_eq_left h]

/-- A record starts with its payload, cut to REC bytes. -/
theorem recordOf_take (p : Params) (payload : List Byte) (d : Nat) :
    (recordOf p payload.length payload d).take payload.length = payload.take p.recBytes := by
  rcases le_total p.recBytes payload.length with h | h
  · rw [recordOf_of_recBytes_le h, List.take_take, min_eq_right h]
  · rw [recordOf_of_le_recBytes h, List.take_left, List.take_of_length_le h]

/-! ## ENQ and DEQ, by what they find (42_queue.md R160, R161, R165) -/

/-- On a full queue an ENQ counts a drop. -/
theorem exec_enq_full {s : State} (h : s.blk.queue.length = s.params.qcap) (c : Ctx) {l : BitVec 16}
    {payload : List Byte} (hl : payload.length = l.toNat) : exec (.enq c l payload) s =
      .next (respond .full 0 none { s with blk := { s.blk with drop := s.blk.drop + 1 } }) := by
  rw [exec_enq hl, enqueue, if_pos h]

/-- On a queue that is not full an ENQ appends its record. -/
theorem exec_enq_stores {s : State} (h : s.blk.queue.length ≠ s.params.qcap) (c : Ctx) {l : BitVec 16}
    {payload : List Byte} (hl : payload.length = l.toNat) : exec (.enq c l payload) s =
      .next (respond .ok 1 none { s with
        blk := { s.blk with queue := s.blk.queue ++ [recordOf s.params l.toNat payload s.draws] }
        draws := s.draws + (s.params.recBytes - min l.toNat s.params.recBytes) }) := by
  rw [exec_enq hl, enqueue, if_neg h, storedLen]

theorem exec_deq_worker (s : State) : exec (.deq .worker) s = .next (dequeue s) := by
  rw [exec_deq, checkCtx_of_allowed rfl]

/-- A DEQ takes the head, whole. -/
theorem exec_deq_head {s : State} {r : List Byte} {rest : List (List Byte)} (h : s.blk.queue = r :: rest) :
    exec (.deq .worker) s = .next (respond .ok 0 (some r) { s with blk := { s.blk with queue := rest } }) := by
  rw [exec_deq_worker, dequeue, h]

/-- On an empty queue a DEQ holds. -/
theorem exec_deq_empty {s : State} (h : s.blk.queue = []) : exec (.deq .worker) s = .next (hold s) := by
  rw [exec_deq_worker, dequeue, h]

/-- A malformed word of an operation other than TAKE: SEL names no signal there, and LEN is ENQ's alone (30_encoding.md R95). -/
theorem runCommand_of_malformed {w : Word} {operand : List Byte} (hop : opField w ≠ 0x5)
    (hlen : operand.length = operandBytes w)
    (hbad : ctxField w = 0b11 ∨ selField w ≠ 0 ∨ rsvField w ≠ 0 ∨ (opField w ≠ 0x3 ∧ lenField w ≠ 0)) (s : State) :
    runCommand .caller (wordBytes w ++ operand) s = .next (raiseError .errIllegal s) := by
  have hillegal : legalWord w = false := by rw [legalWord_eq_false_iff]; tauto
  exact runCommand_of_illegal ((decode_caller_illegal_iff hlen).mpr hillegal) s

/-- Settles O36: ENQ by what it finds; the record it stores, byte by byte. -/
theorem enqSemantics : Obligations.EnqSemantics := by
  unfold Obligations.EnqSemantics
  refine ⟨fun b hb => ?_, fun s w b hop hlen hbad => ?_, fun s c l payload hl => ⟨fun hfull => ?_, fun hroom => ?_⟩⟩
  · exact decode_of_encode_eq (.enq .isr 5 b) (by simp [wellFormed, hb]) rfl
  · have hoperand : b.length = operandBytes w := by simp [operandBytes, hop, hlen]
    exact runCommand_of_malformed (by simp [hop]) hoperand (by tauto) s
  · exact exec_enq_full hfull c hl
  · exact ⟨recordOf s.params l.toNat payload s.draws, exec_enq_stores hroom c hl, recordOf_length s.params hl s.draws,
      recordOf_payload s.params hl s.draws, fun i => recordOf_padding s.params hl s.draws⟩

/-- Settles O37: the drop counter is a word of 32 bits, and RDDROP shows it. -/
theorem fullQueueCountsTheDrop : Obligations.FullQueueCountsTheDrop := by
  unfold Obligations.FullQueueCountsTheDrop
  intro s c c' l payload hl hfull
  exact ⟨_, _, exec_enq_full hfull c hl, rfl, BitVec.toNat_add _ _, rfl, exec_rddrop c' _, rfl⟩

/-- An ENQ of REC bytes or more draws nothing. -/
theorem exec_enq_of_recBytes_le {s : State} (h : s.blk.queue.length ≠ s.params.qcap) (c : Ctx) {l : BitVec 16}
    {payload : List Byte} (hl : payload.length = l.toNat) (hrec : s.params.recBytes ≤ l.toNat) :
    exec (.enq c l payload) s = .next (respond .ok 1 none { s with
      blk := { s.blk with queue := s.blk.queue ++ [payload.take s.params.recBytes] } }) := by
  rw [exec_enq_stores h c hl, recordOf_of_recBytes_le hrec, min_eq_right hrec, Nat.sub_self, Nat.add_zero]

/-- Settles O38: at and above REC the payload fills the record; below, padding follows it, and with no payload there is nothing
else. -/
theorem enqTruncatesToTheRecord : Obligations.EnqTruncatesToTheRecord := by
  unfold Obligations.EnqTruncatesToTheRecord
  refine ⟨fun s c l b hl hrec hroom => exec_enq_of_recBytes_le hroom c hl hrec, fun s c l b hl hrec hroom => ?_,
    fun s c l b hl hrec hroom => ?_, fun s c hroom => ?_⟩
  · have hwhole : b.take s.params.recBytes = b := List.take_of_length_le (hl.trans hrec).le
    have hx := exec_enq_of_recBytes_le hroom c hl hrec.ge
    rwa [hwhole] at hx
  · have hrecord := recordOf_of_le_recBytes (p := s.params) (payload := b) (by omega) s.draws
    rw [hl] at hrecord
    refine ⟨_, padding s.draws (s.params.recBytes - l.toNat), exec_enq_stores hroom c hl, ?_, ?_, rfl⟩
    · rw [hrecord]; rfl
    · rw [← hrecord, recordOf_length s.params hl]
  · have hl : ([] : List Byte).length = (0 : BitVec 16).toNat := rfl
    refine ⟨_, _, exec_enq_stores hroom c hl, rfl, recordOf_length s.params hl s.draws, rfl, fun i hi => ?_⟩
    simpa using recordOf_padding s.params hl s.draws (by simp) hi

/-- Settles O39: the context check comes before the queue, and the word before both. -/
theorem deqSemantics : Obligations.DeqSemantics := by
  unfold Obligations.DeqSemantics
  refine ⟨fun s r rest => exec_deq_head, fun s => exec_deq_empty, fun s c hc => ?_, ?_, fun s w hop hbad => ?_⟩
  · exact exec_of_not_allowed (i := .deq c) (by simp [allowedCtx, hc]) s
  · exact decode_of_encode_eq (.deq .worker) rfl rfl
  · have hnone : ([] : List Byte).length = operandBytes w := by simp [operandBytes, hop]
    have hnotEnq : opField w ≠ 0x3 := by simp [hop]
    rw [← List.append_nil (wordBytes w)]
    exact runCommand_of_malformed (by simp [hop]) hnone (by tauto) s

/-! ## What the queue operations depend on (42_queue.md R169) -/

/-- The same answer was given, in machines that agree on the queue operations' view. -/
def sameQueueOutcome (t t' : State) : Prop := t.response = t'.response ∧ sameQueueView t t'

theorem enqueue_congr {s s' : State} (h : sameQueueView s s') (len : Nat) (payload : List Byte) :
    sameQueueOutcome (enqueue len payload s) (enqueue len payload s') := by
  obtain ⟨hparams, hdraws, hqueue, hdrop⟩ := h
  by_cases hfull : s.blk.queue.length = s.params.qcap
  · rw [enqueue, enqueue, if_pos hfull, if_pos (by rw [← hqueue, ← hparams, hfull])]
    exact ⟨rfl, hparams, hdraws, hqueue, congrArg (· + 1) hdrop⟩
  · rw [enqueue, enqueue, if_neg hfull, if_neg (by rwa [← hqueue, ← hparams])]
    exact ⟨rfl, hparams, by simp [hparams, hdraws], by simp [hparams, hdraws, hqueue], hdrop⟩

theorem dequeue_congr {s s' : State} (h : sameQueueView s s') : sameQueueOutcome (dequeue s) (dequeue s') := by
  obtain ⟨hparams, hdraws, hqueue, hdrop⟩ := h
  rcases dequeue_cases s with ⟨hq, e⟩ | ⟨r, rest, hq, e⟩ <;> rw [e, dequeue, ← hqueue, hq]
  · exact ⟨rfl, hparams, hdraws, hqueue, hdrop⟩
  · exact ⟨rfl, hparams, hdraws, rfl, hdrop⟩

theorem checkCtx_congr {s s' : State} (h : sameQueueView s s') (i : Instr) {body : State → State}
    (hbody : sameQueueOutcome (body s) (body s')) : sameQueueOutcome (checkCtx i body s) (checkCtx i body s') := by
  unfold checkCtx
  split
  · exact hbody
  · exact ⟨rfl, h⟩

theorem exec_tick_drop {s t : State} (h : exec .tick s = .next t) : t.blk.drop = s.blk.drop := by
  cases hp : s.blk.tickPending with
  | true =>
    rw [exec_tick_pending hp] at h
    obtain rfl := Host.Outcome.next.inj h
    simp
  | false =>
    rw [exec_tick_idle hp] at h
    obtain rfl := Host.Outcome.next.inj h
    rfl

/-- Settles O41: each queue operation looks at its view alone, and INIT and TICK write neither queue nor drop counter. -/
theorem queueIndependentOfGenerator : Obligations.QueueIndependentOfGenerator := by
  unfold Obligations.QueueIndependentOfGenerator
  constructor
  · rintro s s' i h hw (⟨c, l, b, rfl⟩ | ⟨c, rfl⟩ | ⟨c, rfl⟩)
    · have hl : b.length = l.toNat := by simpa [wellFormed] using hw
      exact ⟨_, _, exec_enq hl s, exec_enq hl s', enqueue_congr h l.toNat b⟩
    · exact ⟨_, _, exec_deq c s, exec_deq c s', checkCtx_congr h _ (dequeue_congr h)⟩
    · have ⟨_, _, _, hdrop⟩ := h
      exact ⟨_, _, exec_rddrop c s, exec_rddrop c s', by simp [dropView, hdrop], h⟩
  · rintro s t i (⟨c, f, rfl⟩ | rfl) hx
    · obtain ⟨u, hu, -, -, -, hqueue, hdrop⟩ := exec_init_frame c f s
      obtain rfl := Host.Outcome.next.inj (hx.symm.trans hu)
      exact ⟨hqueue, hdrop⟩
    · exact ⟨(exec_tick_frame hx).2, exec_tick_drop hx⟩

/-! ## The turn of an outstanding DEQ (42_queue.md R166, R167) -/

theorem decode_deq_worker : decode .caller (encode (.deq .worker)) = .instr (.deq .worker) :=
  decodeOfEncodeIsIdentity (.deq .worker) rfl

/-- With a record queued, a DEQ completes on its turn with the oldest one, and leaves its port. -/
theorem step_serve_deq {s : State} {n : Nat} {r : List Byte} {rest : List (List Byte)} (ht : turnOf s = .serve n)
    (ho : outstanding s.callers n = some (encode (.deq .worker))) (hq : s.blk.queue = r :: rest) :
    ∃ t, step s = .next t ∧ t.answers = ⟨n, ⟨.ok, 0, some r⟩⟩ :: s.answers ∧ t.blk.queue = rest ∧
      t.callers = withoutCaller s.callers n := by
  have hbegin : (beginTurn s).blk.queue = r :: rest := by simpa using hq
  rw [step_serve ht ho, runCommand_of_decode decode_deq_worker, exec_deq_head hbegin]
  exact ⟨_, rfl, by simp [deliver], by simp, by simp [deliver]⟩

/-- With no record queued the turn of a DEQ passes without an answer. -/
theorem step_serve_deq_empty {s : State} {n : Nat} (ht : turnOf s = .serve n)
    (ho : outstanding s.callers n = some (encode (.deq .worker))) (hq : s.blk.queue = []) :
    step s = .next (hold (beginTurn s)) := by
  have hbegin : (beginTurn s).blk.queue = [] := by simpa using hq
  rw [step_serve ht ho, runCommand_of_decode decode_deq_worker, exec_deq_empty hbegin]
  rfl

/-- Settles O15: the first turn takes the oldest record and leaves the other caller's DEQ for its own turn. -/
theorem severalWorkersKeepFifoOrder : Obligations.SeveralWorkersKeepFifoOrder := by
  unfold Obligations.SeveralWorkersKeepFifoOrder
  intro s m n r₁ r₂ rest hmn hq ht hm hn
  obtain ⟨t, hstep, hans, hqueue, hcallers⟩ := step_serve_deq ht hm hq
  refine ⟨t, hstep, hans, hqueue, fun ht' => ?_⟩
  have hleft : outstanding t.callers n = some (encode (.deq .worker)) := by
    rw [hcallers, outstanding_withoutCaller_of_ne _ hmn.symm, hn]
  obtain ⟨u, hstep', hans', hqueue', -⟩ := step_serve_deq ht' hleft hqueue
  exact ⟨u, hstep', hans', hqueue'⟩

/-! ## What ends an outstanding command, and what lifts a held DEQ (30_encoding.md R80, 42_queue.md R166) -/

/-- Only an answer on its own turn, or a reset, ends an outstanding command. -/
theorem step_outstanding {s t : State} {n : Nat} {bytes : List Byte} (h : step s = .next t) (hr : resetsNext s = false)
    (ho : outstanding s.callers n = some bytes) :
    outstanding t.callers n = some bytes ∨ (turnOf s = .serve n ∧ t.response ≠ none) := by
  rcases step_cases h with ⟨_, rfl⟩ | ⟨_, hx⟩ | ⟨m, b, _, _, ⟨_, rfl⟩ | ⟨_, rfl⟩⟩ | ⟨m, ht, ⟨_, rfl⟩ | ⟨b, _, u, hu, rfl⟩⟩ |
    ⟨l, _, rfl⟩ | ⟨d, ht, rfl⟩
  · exact .inl (by simpa using ho)
  · obtain ⟨-, -, hcallers, -⟩ := exec_frame hx
    exact .inl (by simpa [hcallers] using ho)
  · exact .inl (by simpa using ho)
  · exact .inl (by rw [outstanding_append, ho]; rfl)
  · exact .inl (by simpa using ho)
  · have hcallers : u.callers = s.callers := by simpa using runCommand_callers hu
    rcases deliver_cases m u with ⟨_, e⟩ | ⟨r, hn, e⟩ <;> rw [e]
    · exact .inl (by rw [hcallers, ho])
    · by_cases hmn : n = m
      · exact .inr ⟨hmn ▸ ht, by simp [hn]⟩
      · exact .inl (by rw [hcallers, outstanding_withoutCaller_of_ne _ hmn, ho])
  · exact .inl (by simpa using ho)
  · exact absurd ht (turn_not_reset hr d)

/-- A DEQ stays outstanding while the queue is empty. -/
theorem step_keeps_held_deq {s t : State} {n : Nat} (h : step s = .next t) (hr : resetsNext s = false)
    (ho : outstanding s.callers n = some (encode (.deq .worker))) (hq : s.blk.queue = []) :
    outstanding t.callers n = some (encode (.deq .worker)) := by
  rcases step_outstanding h hr ho with hkept | ⟨ht, hanswered⟩
  · exact hkept
  · obtain rfl := Host.Outcome.next.inj (h.symm.trans (step_serve_deq_empty ht ho hq))
    exact absurd rfl hanswered

/-- Of all changes of the block only an append fills an empty queue. -/
theorem BlockChange.queue_filled {s : State} {b : Block} (h : BlockChange s b) (hr : ∀ draw, turnOf s ≠ .reset draw)
    (he : s.blk.queue = []) (hne : b.queue ≠ []) : ∃ m c l payload r, instrNext s = some (some m, .enq c l payload) ∧
      s.blk.queue.length ≠ s.params.qcap ∧ b.queue = [r] := by
  cases h with
  | appended m c l payload r hi hroom _ => exact ⟨m, c, l, payload, r, hi, hroom, by simp [he]⟩
  | removed m c r rest _ hq => simp [he] at hq
  | reset draw ht => exact absurd ht (hr draw)
  | _ => simp [he] at hne

/-- A step that runs a caller's instruction ends with its delivery. -/
theorem step_of_instrNext {s t : State} {m : Nat} {i : Instr} (hi : instrNext s = some (some m, i))
    (h : step s = .next t) : ∃ u, exec i (beginTurn s) = .next u ∧ t = deliver m u := by
  unfold instrNext at hi
  split at hi
  · simp at hi
  · rename_i n ht
    split at hi
    · simp at hi
    · rename_i bytes ho
      split at hi
      · rename_i j hd
        simp only [Option.some.injEq, Prod.mk.injEq] at hi
        obtain ⟨rfl, rfl⟩ := hi
        rw [step_serve ht ho, runCommand_of_decode hd] at h
        exact deliverOutcome_next h
      · simp at hi
  · simp at hi

/-- An ENQ that finds room is answered OK. -/
theorem step_enq_response {s t : State} {m : Nat} {c : Ctx} {l : BitVec 16} {payload : List Byte}
    (hi : instrNext s = some (some m, .enq c l payload)) (h : step s = .next t)
    (hroom : s.blk.queue.length ≠ s.params.qcap) : t.response = some ⟨.ok, 1, none⟩ := by
  obtain ⟨u, hx, rfl⟩ := step_of_instrNext hi h
  by_cases hl : payload.length = l.toNat
  · rw [exec_enq_stores (by simpa using hroom) c hl] at hx
    obtain rfl := Host.Outcome.next.inj hx
    simp
  · simp [exec, execEnq, hl] at hx

/-- Settles O40: only an append fills the queue, and the DEQ is still outstanding to take the one record. -/
theorem onlyAnAcceptedEnqLiftsADeq : Obligations.OnlyAnAcceptedEnqLiftsADeq := by
  unfold Obligations.OnlyAnAcceptedEnqLiftsADeq
  intro s t n hq ho h hr
  have hkept := step_keeps_held_deq h hr ho hq
  refine ⟨hkept, fun hne => ?_⟩
  obtain ⟨-, hb⟩ := step_block_change h
  obtain ⟨m, c, l, payload, r, hi, hroom, hqueue⟩ := hb.queue_filled (turn_not_reset hr) hq hne
  refine ⟨⟨m, c, l, payload, hi, step_enq_response hi h hroom⟩, r, hqueue, fun ht => ?_⟩
  obtain ⟨u, hstep, hans, hempty, hcallers⟩ := step_serve_deq ht hkept hqueue
  exact ⟨u, hstep, hans, hempty, by rw [hcallers, outstanding_withoutCaller_self]⟩

/-! ## Filling, overflowing and draining (42_queue.md R170) -/

theorem execAll_cons {i : Instr} {rest : List Instr} {s t u : State} {r : Response} {rs : List Response}
    (hx : exec i s = .next t) (hr : t.response = some r) (hrest : execAll rest t = some (u, rs)) :
    execAll (i :: rest) s = some (u, r :: rs) := by
  simp [execAll, hx, hr, hrest]

/-- A list of instructions that all are answered starts with one that is. -/
theorem execAll_cons_some {i : Instr} {rest : List Instr} {s u : State} {rs : List Response}
    (h : execAll (i :: rest) s = some (u, rs)) : ∃ t r qs, exec i s = .next t ∧ t.response = some r ∧
      execAll rest t = some (u, qs) ∧ rs = r :: qs := by
  simp only [execAll] at h
  split at h <;> try contradiction
  rename_i t hx
  split at h <;> try contradiction
  rename_i r hr
  split at h <;> try contradiction
  rename_i v qs hrest
  obtain ⟨rfl, rfl⟩ := Prod.mk.inj (Option.some.inj h)
  exact ⟨t, r, qs, hx, hr, hrest, rfl⟩

theorem execAll_append {is js : List Instr} {s t u : State} {rs qs : List Response} (h : execAll is s = some (t, rs))
    (h' : execAll js t = some (u, qs)) : execAll (is ++ js) s = some (u, rs ++ qs) := by
  induction is generalizing s rs with
  | nil =>
    obtain ⟨rfl, rfl⟩ := Prod.mk.inj (Option.some.inj h)
    exact h'
  | cons i is ih =>
    obtain ⟨m, r, ps, hx, hr, hrest, rfl⟩ := execAll_cons_some h
    exact execAll_cons hx hr (ih hrest)

/-- An ENQ's operands: its context, LEN and payload. -/
abbrev EnqItem := Ctx × BitVec 16 × List Byte

/-- `r` is a record of REC bytes that starts with the payload of `x`, cut to REC. -/
def storedAs (p : Params) (x : EnqItem) (r : List Byte) : Prop :=
  r.length = p.recBytes ∧ r.take x.2.2.length = x.2.2.take p.recBytes

theorem recordOf_storedAs (p : Params) {x : EnqItem} (h : x.2.2.length = x.2.1.toNat) (d : Nat) :
    storedAs p x (recordOf p x.2.1.toNat x.2.2 d) := by
  refine ⟨recordOf_length p h d, ?_⟩
  rw [← h, recordOf_take]

/-- With room for all of them, ENQs append one record each, in order. -/
theorem execAll_enqs {items : List EnqItem} {s : State} (hlen : ∀ x ∈ items, x.2.2.length = x.2.1.toNat)
    (hroom : s.blk.queue.length + items.length ≤ s.params.qcap) :
    ∃ t records, execAll (items.map fun x => .enq x.1 x.2.1 x.2.2) s =
        some (t, List.replicate items.length ⟨.ok, 1, none⟩) ∧
      t.params = s.params ∧ t.blk.drop = s.blk.drop ∧ t.blk.queue = s.blk.queue ++ records ∧
      List.Forall₂ (storedAs s.params) items records := by
  induction items generalizing s with
  | nil => exact ⟨s, [], rfl, rfl, rfl, by simp, .nil⟩
  | cons x items ih =>
    obtain ⟨hx, hitems⟩ := List.forall_mem_cons.mp hlen
    rw [List.length_cons] at hroom
    have hexec := exec_enq_stores (s := s) (by omega) x.1 hx
    obtain ⟨t, records, hall, hparams, hdrop, hqueue, hstored⟩ := ih (s := respond .ok 1 none { s with
      blk := { s.blk with queue := s.blk.queue ++ [recordOf s.params x.2.1.toNat x.2.2 s.draws] }
      draws := s.draws + (s.params.recBytes - min x.2.1.toNat s.params.recBytes) }) hitems (by simp; omega)
    exact ⟨t, _ :: records, execAll_cons hexec rfl hall, hparams, hdrop, by simpa using hqueue,
      .cons (recordOf_storedAs s.params hx s.draws) hstored⟩

/-- As many DEQs as there are records return them in order. -/
theorem execAll_deqs {s : State} : ∃ u, execAll (List.replicate s.blk.queue.length (.deq .worker)) s =
      some (u, s.blk.queue.map fun r => ⟨.ok, 0, some r⟩) ∧ u.blk.drop = s.blk.drop ∧ u.blk.queue = [] := by
  generalize hq : s.blk.queue = records
  induction records generalizing s with
  | nil => exact ⟨s, rfl, rfl, hq⟩
  | cons r records ih =>
    obtain ⟨u, hall, hdrop, hempty⟩ := ih (s := respond .ok 0 (some r) { s with blk := { s.blk with queue := records } }) rfl
    exact ⟨u, execAll_cons (exec_deq_head hq) rfl hall, hdrop, hempty⟩

/-- Settles O42: the first QCAP ENQs find room, the last one none, and the DEQs return what was stored. -/
theorem overflowDropsOneAndDrainsInOrder : Obligations.OverflowDropsOneAndDrainsInOrder := by
  unfold Obligations.OverflowDropsOneAndDrainsInOrder
  intro s items hq hd hlen hitems
  obtain ⟨first, last, rfl⟩ := (List.eq_nil_or_concat' items).resolve_left (by rintro rfl; simp at hlen)
  obtain ⟨hfirst, hlast⟩ := List.forall_mem_append.mp hitems
  have hcount : first.length = s.params.qcap := by simpa using hlen
  obtain ⟨v, records, hfill, hparams, hdrop, hqueue, hstored⟩ := execAll_enqs (s := s) hfirst (by simp [hq, hcount])
  rw [hq, List.nil_append] at hqueue
  have hrecords : records.length = s.params.qcap := hstored.length_eq.symm.trans hcount
  have hfull : v.blk.queue.length = v.params.qcap := by rw [hqueue, hrecords, hparams]
  obtain ⟨t, hexec, hanswer, hdropt, hqueuet⟩ : ∃ t, exec (.enq last.1 last.2.1 last.2.2) v = .next t ∧
      t.response = some ⟨.full, 0, none⟩ ∧ t.blk.drop = v.blk.drop + 1 ∧ t.blk.queue = v.blk.queue :=
    ⟨_, exec_enq_full hfull last.1 (hlast last (List.mem_singleton_self last)), rfl, rfl, rfl⟩
  have hone : t.blk.drop = 1 := by rw [hdropt, hdrop, hd]; rfl
  obtain ⟨u, hdrain, hdropu, hempty⟩ := execAll_deqs (s := t)
  rw [hqueuet, hqueue, hrecords] at hdrain
  refine ⟨t, u, records, ?_, hone, hrecords, fun i r x hr hx => ?_, hdrain, hdropu.trans hone, exec_deq_empty hempty⟩
  · rw [List.map_append, ← hcount]
    exact execAll_append hfill (execAll_cons hexec hanswer rfl)
  · obtain ⟨hi, rfl⟩ := List.getElem?_eq_some_iff.mp hr
    have hi' : i < first.length := by omega
    rw [List.getElem?_append_left hi', List.getElem?_eq_getElem hi'] at hx
    obtain rfl := Option.some.inj hx
    exact hstored.get hi' hi

end Sys2Proof.Machine

/-! SUPPORT. Signals and inspection (43_signals_inspect.md): what a TAKE does by the count it finds, the turn of an outstanding
TAKE, how a backlog of releases is taken, what lifts a held TAKE, and what RDSTAT and RDDROP read. -/

namespace Sys2Proof.Machine

/-! ## Words without operands (30_encoding.md R80, R93) -/

/-- A word that declares no operand and fails a check is answered ERR_ILLEGAL, on its own. -/
theorem runCommand_of_illegal_word {w : Word} (hnone : operandBytes w = 0) (hillegal : legalWord w = false) (s : State) :
    runCommand .caller (wordBytes w) s = .next (raiseError .errIllegal s) := by
  have hlen : ([] : List Byte).length = operandBytes w := hnone.symm
  rw [← List.append_nil (wordBytes w)]
  exact runCommand_of_illegal ((decode_caller_illegal_iff hlen).mpr hillegal) s

/-- A malformed RDSTAT or RDDROP word (43_signals_inspect.md R196, R198). -/
theorem runCommand_of_malformed_read {w : Word} (hop : opField w = 0x6 ∨ opField w = 0x7)
    (hbad : ctxField w = 0b11 ∨ selField w ≠ 0 ∨ rsvField w ≠ 0 ∨ lenField w ≠ 0) (s : State) :
    runCommand .caller (wordBytes w) s = .next (raiseError .errIllegal s) := by
  have hnotTake : opField w ≠ 0x5 := by rcases hop with h | h <;> simp [h]
  have hnotEnq : opField w ≠ 0x3 := by rcases hop with h | h <;> simp [h]
  have hnone : operandBytes w = 0 := by rcases hop with h | h <;> simp [operandBytes, h]
  exact runCommand_of_illegal_word hnone (by rw [legalWord_eq_false_iff]; tauto) s

/-! ## TAKE, by the count it finds (43_signals_inspect.md R190) -/

/-- A change of one count leaves the fields beside the signals alone. -/
theorem setSig_beside_signals (b : Block) (k : Signal) (v : Nat) :
    { b.setSig k v with sigBase := 0, sigD10 := 0, sigD100 := 0 } = { b with sigBase := 0, sigD10 := 0, sigD100 := 0 } := by
  cases k <;> rfl

/-- On a positive count a TAKE takes one away and is answered. -/
theorem exec_take_counted {k : Signal} {s : State} (h : s.blk.sig k ≠ 0) : exec (.take .task k) s =
    .next (respond .ok 0 none { s with blk := s.blk.setSig k (s.blk.sig k - 1) }) := by
  rw [exec_take, checkCtx_of_allowed rfl, takeSignal, if_neg h]

/-- Settles O44: the word is checked first, then the context, then the count. -/
theorem takeSemantics : Obligations.TakeSemantics := by
  unfold Obligations.TakeSemantics
  refine ⟨fun s k hpos => ?_, fun s k => exec_take_of_zero, fun s c k hc => ?_, ⟨?_, ?_, ?_⟩, fun s w hop hbad => ?_⟩
  · exact ⟨_, exec_take_counted hpos.ne', by rw [setSig_sig, if_pos rfl], fun j hj => by rw [setSig_sig, if_neg hj],
      setSig_beside_signals _ _ _⟩
  · exact exec_of_not_allowed (i := .take c k) (by simp [allowedCtx, hc]) s
  · exact decode_of_encode_eq (.take .task .base) rfl rfl
  · exact decode_of_encode_eq (.take .task .d10) rfl rfl
  · exact decode_of_encode_eq (.take .task .d100) rfl rfl
  · have hnone : operandBytes w = 0 := by simp [operandBytes, hop]
    have hnotEnq : opField w ≠ 0x3 := by simp [hop]
    exact runCommand_of_illegal_word hnone (by rw [legalWord_eq_false_iff]; tauto) s

/-! ## The turn of an outstanding TAKE (43_signals_inspect.md R191, R192) -/

theorem decode_take_task (k : Signal) : decode .caller (encode (.take .task k)) = .instr (.take .task k) :=
  decodeOfEncodeIsIdentity (.take .task k) rfl

/-- On a positive count a TAKE completes on its turn, lowers the count by one and leaves its port. -/
theorem step_serve_take {s : State} {n : Nat} {k : Signal} (ht : turnOf s = .serve n)
    (ho : outstanding s.callers n = some (encode (.take .task k))) (hpos : s.blk.sig k ≠ 0) :
    ∃ t, step s = .next t ∧ t.answers = ⟨n, ⟨.ok, 0, none⟩⟩ :: s.answers ∧ t.blk.sig k + 1 = s.blk.sig k ∧
      t.callers = withoutCaller s.callers n := by
  have hbegin : (beginTurn s).blk.sig k ≠ 0 := by simpa using hpos
  rw [step_serve ht ho, runCommand_of_decode (decode_take_task k), exec_take_counted hbegin]
  refine ⟨_, rfl, by simp [deliver], ?_, by simp [deliver]⟩
  simp only [deliver_blk, respond_blk, setSig_sig, if_true, beginTurn_blk]
  omega

/-- On a zero count the turn of a TAKE passes without an answer. -/
theorem step_serve_take_zero {s : State} {n : Nat} {k : Signal} (ht : turnOf s = .serve n)
    (ho : outstanding s.callers n = some (encode (.take .task k))) (hz : s.blk.sig k = 0) :
    step s = .next (hold (beginTurn s)) := by
  have hbegin : (beginTurn s).blk.sig k = 0 := by simpa using hz
  rw [step_serve ht ho, runCommand_of_decode (decode_take_task k), exec_take_of_zero hbegin]
  rfl

/-- Settles O14: the first turn takes the one release, and the other caller's TAKE finds none on its own. -/
theorem oneWaiterTakesTheRelease : Obligations.OneWaiterTakesTheRelease := by
  unfold Obligations.OneWaiterTakesTheRelease
  intro s m n k hmn hone ht hm hn
  obtain ⟨t, hstep, hans, hcount, hcallers⟩ := step_serve_take ht hm (by simp [hone])
  have hzero : t.blk.sig k = 0 := by omega
  have hleft : outstanding t.callers n = some (encode (.take .task k)) := by
    rw [hcallers, outstanding_withoutCaller_of_ne _ hmn.symm, hn]
  refine ⟨t, hstep, hans, hzero, by rw [hcallers, outstanding_withoutCaller_self], hleft, fun ht' => ?_⟩
  exact ⟨_, step_serve_take_zero ht' hleft hzero, by simp, by simp, by simpa using hleft⟩

/-! ## What lifts a held TAKE (43_signals_inspect.md R191) -/

/-- A TAKE stays outstanding while its signal counts nothing. -/
theorem step_keeps_held_take {s t : State} {n : Nat} {k : Signal} (h : step s = .next t) (hr : resetsNext s = false)
    (ho : outstanding s.callers n = some (encode (.take .task k))) (hz : s.blk.sig k = 0) :
    outstanding t.callers n = some (encode (.take .task k)) := by
  rcases step_outstanding h hr ho with hkept | ⟨ht, hanswered⟩
  · exact hkept
  · obtain rfl := Host.Outcome.next.inj (h.symm.trans (step_serve_take_zero ht ho hz))
    exact absurd rfl hanswered

/-- Settles O45: only a service raises a count, the invariant lets one run only in RUNNING, and the TAKE is still outstanding to
take what it releases. -/
theorem onlyAReleaseLiftsATake : Obligations.OnlyAReleaseLiftsATake := by
  unfold Obligations.OnlyAReleaseLiftsATake
  intro s t k n hs hz ho h hr
  have hkept := step_keeps_held_take h hr ho hz
  refine ⟨hkept, fun hne => ?_, fun ht hne => ?_⟩
  · obtain ⟨-, hb⟩ := step_block_change h
    obtain ⟨_, hserv, -⟩ := hb.signal_raised (k := k) (by omega)
    obtain ⟨-, hpending⟩ := (servicesNext_iff s).mp hserv
    exact ⟨hserv, hs.block.pendingRunning hpending⟩
  · obtain ⟨u, hstep, hans, hcount, -⟩ := step_serve_take ht hkept hne
    exact ⟨u, hstep, hans, hcount⟩

/-! ## A backlog of releases (43_signals_inspect.md R193) -/

/-- As many TAKEs as a signal counts are answered one after another and leave it at 0. -/
theorem execAll_takes {k : Signal} {s : State} : ∃ t, execAll (List.replicate (s.blk.sig k) (.take .task k)) s =
      some (t, List.replicate (s.blk.sig k) ⟨.ok, 0, none⟩) ∧
    t.blk.sig k = 0 ∧ (∀ j, j ≠ k → t.blk.sig j = s.blk.sig j) ∧ t.blk.queue = s.blk.queue := by
  generalize hc : s.blk.sig k = count
  induction count generalizing s with
  | zero => exact ⟨s, rfl, hc, fun _ _ => rfl, rfl⟩
  | succ count ih =>
    have hexec := exec_take_counted (k := k) (s := s) (by omega)
    obtain ⟨t, hall, hzero, hothers, hqueue⟩ :=
      ih (s := respond .ok 0 none { s with blk := s.blk.setSig k (s.blk.sig k - 1) }) (by simp [setSig_sig, hc])
    refine ⟨t, execAll_cons hexec rfl hall, hzero, fun j hj => ?_, by simpa using hqueue⟩
    rw [hothers j hj, respond_blk, setSig_sig, if_neg hj]

/-- Settles O46: the TAKEs bring the count to 0, on which the next one holds. -/
theorem backlogCompletesWithoutHolding : Obligations.BacklogCompletesWithoutHolding := by
  unfold Obligations.BacklogCompletesWithoutHolding
  intro s k
  obtain ⟨t, hall, hzero, hothers, hqueue⟩ := execAll_takes (k := k) (s := s)
  exact ⟨t, hall, hzero, hothers, hqueue, exec_take_of_zero hzero⟩

/-! ## RDSTAT and RDDROP (43_signals_inspect.md R196, R198) -/

/-- The gap between the two codes of STATUS, bits 7:2, is 0 (10_state.md R33). -/
theorem statusView_gap (b : Block) : (statusView b).extractLsb' 2 6 = 0 :=
  calc (0#16 ++ b.err.code ++ 0#6 ++ b.state.code).extractLsb' 2 6
    _ = (0#16 ++ b.err.code ++ 0#6).extractLsb' 0 6 := BitVec.extractLsb'_append_eq_of_le (by decide)
    _ = 0#6 := BitVec.extractLsb'_append_eq_right

/-- The upper half of STATUS is 0 (10_state.md R33). -/
theorem statusView_upper (b : Block) : (statusView b).extractLsb' 16 16 = 0 :=
  calc (0#16 ++ b.err.code ++ 0#6 ++ b.state.code).extractLsb' 16 16
    _ = (0#16 ++ b.err.code ++ 0#6).extractLsb' 14 16 := BitVec.extractLsb'_append_eq_of_le (by decide)
    _ = (0#16 ++ b.err.code).extractLsb' 8 16 := BitVec.extractLsb'_append_eq_of_le (by decide)
    _ = (0#16).extractLsb' 0 16 := BitVec.extractLsb'_append_eq_of_le (by decide)
    _ = 0#16 := BitVec.extractLsb'_eq_self

/-- Settles O47: the answer is STATUS, read field by field. -/
theorem rdstatReturnsStatus : Obligations.RdstatReturnsStatus := by
  unfold Obligations.RdstatReturnsStatus
  refine ⟨⟨?_, ?_, ?_⟩, fun s w hop hbad => runCommand_of_malformed_read (.inl hop) hbad s, fun s c =>
    ⟨statusView s.blk, exec_rdstat c s, statusView_gap s.blk, statusView_upper s.blk, ?_, ?_⟩⟩
  · exact decode_of_encode_eq (.rdstat .task) rfl rfl
  · exact decode_of_encode_eq (.rdstat .isr) rfl rfl
  · exact decode_of_encode_eq (.rdstat .worker) rfl rfl
  · rw [statusView_state]
    cases s.blk.state <;> rfl
  · rw [statusView_err]
    cases s.blk.err <;> rfl

/-- Settles O48: RDDROP answers the drop counter and writes nothing, so the next one reads the same. -/
theorem rddropReturnsTheDropCounter : Obligations.RddropReturnsTheDropCounter := by
  unfold Obligations.RddropReturnsTheDropCounter
  refine ⟨⟨?_, ?_, ?_⟩, fun s w hop hbad => runCommand_of_malformed_read (.inr hop) hbad s, fun s c c' =>
    ⟨exec_rddrop c s, execAll_cons (exec_rddrop c s) rfl (execAll_cons (exec_rddrop c' _) rfl rfl)⟩⟩
  · exact decode_of_encode_eq (.rddrop .task) rfl rfl
  · exact decode_of_encode_eq (.rddrop .isr) rfl rfl
  · exact decode_of_encode_eq (.rddrop .worker) rfl rfl

end Sys2Proof.Machine

/-! SUPPORT. Errors and the tick service's answers (60_exceptions.md): what each class of answer says of the block, and where a
failed re-arm can be read. -/

namespace Sys2Proof.Machine

/-! ## The answer of a command and what it did to the block (60_exceptions.md R214) -/

/-- A FULL answer in `t` says that the block changed from `s` in the drop counter alone; ERR_ILLEGAL, ERR_CONTEXT and ERR_STATE
say that it did not change. -/
def answersInClass (s t : State) : Prop :=
  ∀ r, t.response = some r →
    (r.status = .full → t.blk = { s.blk with drop := s.blk.drop + 1 }) ∧
      (r.status = .errIllegal ∨ r.status = .errContext ∨ r.status = .errState → t.blk = s.blk)

theorem answersInClass_of_no_response {s t : State} (h : t.response = none) : answersInClass s t := by
  simp [answersInClass, h]

/-- An error raised on the state as it was changes nothing of the block. -/
theorem raiseError_answersInClass {status : Status} (h : status ≠ .full) (s : State) :
    answersInClass s (raiseError status s) := by
  rintro r hr
  obtain rfl := Option.some.inj hr
  exact ⟨fun hfull => absurd hfull h, fun _ => rfl⟩

/-- OK belongs to none of the classes, whatever the command wrote. -/
theorem respond_ok_answersInClass (value : Word) (data : Option (List Byte)) (s u : State) :
    answersInClass s (respond .ok value data u) := by
  rintro r hr
  obtain rfl := Option.some.inj hr
  simp

/-- Of INIT's errors only ERR_STATE is of these classes: the others are the fatal class (a), which writes its cause. -/
theorem configure_answersInClass (freq : Word) (s : State) : answersInClass s (configure freq s) := by
  rcases configure_cases freq s with ⟨_, e⟩ | ⟨_, _, e⟩ | ⟨_, _, _, e⟩ | ⟨_, _, _, e⟩ | ⟨_, _, _, _, e⟩ <;> rw [e]
  · exact raiseError_answersInClass (by decide) s
  · simp [answersInClass]
  · simp [answersInClass]
  · simp [answersInClass]
  · exact respond_ok_answersInClass _ _ _ _

/-- Only ENQ answers FULL, and counts the drop (42_queue.md R161). -/
theorem enqueue_answersInClass (len : Nat) (payload : List Byte) (s : State) :
    answersInClass s (enqueue len payload s) := by
  rcases enqueue_cases len payload s with ⟨_, e⟩ | ⟨_, e⟩ <;> rw [e]
  · simp [answersInClass]
  · exact respond_ok_answersInClass _ _ _ _

theorem dequeue_answersInClass (s : State) : answersInClass s (dequeue s) := by
  rcases dequeue_cases s with ⟨_, e⟩ | ⟨_, _, _, e⟩ <;> rw [e]
  · exact answersInClass_of_no_response rfl
  · exact respond_ok_answersInClass _ _ _ _

theorem takeSignal_answersInClass (k : Signal) (s : State) : answersInClass s (takeSignal k s) := by
  rcases takeSignal_cases k s with ⟨_, e⟩ | ⟨_, e⟩ <;> rw [e]
  · exact answersInClass_of_no_response rfl
  · exact respond_ok_answersInClass _ _ _ _

/-- The context check adds ERR_CONTEXT, which changes nothing. -/
theorem checkCtx_answersInClass (i : Instr) {body : State → State} {s : State} (h : answersInClass s (body s)) :
    answersInClass s (checkCtx i body s) := by
  rcases checkCtx_cases i body s with ⟨_, e⟩ | ⟨_, e⟩ <;> rw [e]
  · exact h
  · exact raiseError_answersInClass (by decide) s

theorem exec_answersInClass {i : Instr} {s t : State} (h : exec i s = .next t) : answersInClass s t := by
  cases i with
  | init c f =>
    rw [exec_init] at h
    obtain rfl := Host.Outcome.next.inj h
    exact checkCtx_answersInClass _ (configure_answersInClass f s)
  | tick =>
    obtain ⟨hn, -⟩ := exec_tick_frame h
    exact answersInClass_of_no_response hn
  | enq c l payload =>
    by_cases hl : payload.length = l.toNat
    · rw [exec_enq hl] at h
      obtain rfl := Host.Outcome.next.inj h
      exact enqueue_answersInClass l.toNat payload s
    · simp [exec, execEnq, hl] at h
  | deq c =>
    rw [exec_deq] at h
    obtain rfl := Host.Outcome.next.inj h
    exact checkCtx_answersInClass _ (dequeue_answersInClass s)
  | take c k =>
    rw [exec_take] at h
    obtain rfl := Host.Outcome.next.inj h
    exact checkCtx_answersInClass _ (takeSignal_answersInClass k s)
  | rdstat c =>
    rw [exec_rdstat] at h
    obtain rfl := Host.Outcome.next.inj h
    exact respond_ok_answersInClass _ _ _ _
  | rddrop c =>
    rw [exec_rddrop] at h
    obtain rfl := Host.Outcome.next.inj h
    exact respond_ok_answersInClass _ _ _ _

/-- An illegal transaction answers ERR_ILLEGAL and changes nothing (30_encoding.md R93); a legal one runs its instruction. -/
theorem runCommand_answersInClass {who : Issuer} {bytes : List Byte} {s t : State}
    (h : runCommand who bytes s = .next t) : answersInClass s t := by
  rcases runCommand_cases h with ⟨i, -, hx⟩ | ⟨-, rfl⟩
  · exact exec_answersInClass hx
  · exact raiseError_answersInClass (by decide) s

/-- A step that answers is the delivery of some caller's outstanding command. -/
theorem step_answered {s t : State} {r : Response} (h : step s = .next t) (hr : t.response = some r) :
    ∃ n bytes u, outstanding s.callers n = some bytes ∧ runCommand .caller bytes (beginTurn s) = .next u ∧
      t = deliver n u := by
  obtain ⟨hn, -⟩ | ⟨n, -, ht, -⟩ := step_answers h
  · simp [hn] at hr
  cases ho : outstanding s.callers n with
  | none =>
    simp only [step, ht, runTurn, serveCaller, beginTurn_callers, ho] at h
    obtain rfl := Host.Outcome.next.inj h
    simp at hr
  | some bytes =>
    rw [step_serve ht ho] at h
    obtain ⟨u, hu, rfl⟩ := deliverOutcome_next h
    exact ⟨n, bytes, u, ho, hu, rfl⟩

theorem step_answersInClass {s t : State} (h : step s = .next t) : answersInClass s t := by
  intro r hr
  obtain ⟨n, bytes, u, -, hu, rfl⟩ := step_answered h hr
  have hclass := runCommand_answersInClass hu
  simpa using hclass r (by simpa using hr)

/-- Settles O13: a change other than a reset keeps `FailedSince` and `HaltedSince`, which hold of the block a step begins with;
and a step answers what its command answers. -/
theorem errorClassesByOutcome : Obligations.ErrorClassesByOutcome := by
  unfold Obligations.ErrorClassesByOutcome
  refine ⟨fun s t hs h hreset hfatal => ?_, fun s t r h => step_answersInClass h r⟩
  obtain ⟨-, hb⟩ := step_block_change h
  have hr := turn_not_reset hreset
  rcases hfatal with hc | hh
  · have hfailed := hb.failedSince hr (hs.block.failedSince hc)
    exact ⟨hfailed.state.trans hc.symm, hfailed.cause⟩
  · have hhalted := hb.haltedSince hr (hs.block.haltedSince hh)
    exact ⟨hhalted.state.trans hh.symm, hhalted.cause⟩

/-! ## The service's errors (60_exceptions.md R213) -/

/-- Under the invariant a service halts exactly if it is late or the device refuses the re-arm. -/
theorem serviceBlock_halted_iff {p : Params} {b : Block} (h : b.Inv p) (hp : b.tickPending = true) (d : Bool) :
    (serviceBlock p d b).state = .halted ↔ b.period ≤ b.elapsed ∨ d = true := by
  rcases serviceBlock_cases_of_inv h hp d with ⟨hl, hs, -⟩ | ⟨-, hd, hs, -⟩ | ⟨hl, hd, hs, -⟩ <;> rw [hs]
  · exact iff_of_true rfl (.inl hl)
  · exact iff_of_true rfl (.inr hd)
  · simp [hl, hd]

/-- STATUS after a service that halted: HALTED, with REARM_LATE or REARM_DEVICE as its cause. -/
theorem statusView_serviceBlock_of_halted {p : Params} {d : Bool} {b : Block} (hr : b.state = .running)
    (hh : (serviceBlock p d b).state = .halted) :
    statusView (serviceBlock p d b) = if b.period ≤ b.elapsed then 0x0000A002 else 0x0000A102 := by
  obtain ⟨herr, -⟩ := serviceBlock_of_halted hr hh
  rw [statusView, herr, hh]
  split <;> rfl

/-- The service turn always completes and answers no one. -/
theorem step_service_answers_no_one {s : State} (ht : turnOf s = .service) :
    ∃ t, step s = .next t ∧ t.answers = s.answers ∧ t.response = none := by
  obtain ⟨t, hx⟩ := exec_answers (i := .tick) rfl (beginTurn s)
  obtain ⟨-, -, -, -, hanswers⟩ := exec_frame hx
  obtain ⟨hn, -⟩ := exec_tick_frame hx
  exact ⟨t, by rw [step, ht, runTurn_service, hx], by simpa using hanswers, hn⟩

/-- Settles O31: the service turn answers no one, and where it halts RDSTAT reads the STATUS of the block it left. -/
theorem serviceErrorsReachStatusOnly : Obligations.ServiceErrorsReachStatusOnly := by
  unfold Obligations.ServiceErrorsReachStatusOnly
  intro s ht
  obtain ⟨t, hstep, hanswers, hn⟩ := step_service_answers_no_one ht
  refine ⟨t, hstep, hanswers, hn, fun hs hp => ?_⟩
  have hblk : t.blk = serviceBlock s.params (deviceDraw (beginTurn s)) s.blk := by
    rw [step_of_servicesNext ((servicesNext_iff s).mpr ⟨ht, hp⟩)] at hstep
    rw [← Host.Outcome.next.inj hstep]
  refine ⟨by rw [hblk]; exact serviceBlock_halted_iff hs.block hp _, fun hh c => ?_⟩
  rw [hblk] at hh
  have hstatus := statusView_serviceBlock_of_halted (hs.block.pendingRunning hp) hh
  rw [← hblk] at hstatus
  rw [exec_rdstat, hstatus]
  rfl

end Sys2Proof.Machine

/-! SUPPORT. Reset and hazards (70_reset_and_hazards.md): what a reset puts where, and that turning the counter and the alarm
together commutes with every operation of the model, so with every step but a reset. -/

namespace Sys2Proof.Machine

/-! ## Reset (70_reset_and_hazards.md R240) -/

theorem step_of_reset {s : State} {draw : Nat} (ht : turnOf s = .reset draw) :
    step s = .next (resetMachine draw (beginTurn s)) := by
  rw [step, ht]; rfl

/-- Settles O51: the reset turn puts `Block.reset` in place of the block, at the draw reduced to the timer's width. -/
theorem resetPutsEveryField : Obligations.ResetPutsEveryField := by
  unfold Obligations.ResetPutsEveryField
  intro s draw ht
  have hblk : (resetMachine draw (beginTurn s)).blk = Block.reset (draw % 2 ^ s.params.tw) := by
    rw [resetMachine_blk, beginTurn_params]; rfl
  exact ⟨_, step_of_reset ht, resetMachine_callers _ draw, hblk⟩

/-! ## Counts turned by the same amount -/

/-- Turning keeps which numbers of the timer's width are equal. -/
theorem wrapTimer_add_right_inj (p : Params) (m n c : Nat) :
    wrapTimer p (m + c) = wrapTimer p (n + c) ↔ wrapTimer p m = wrapTimer p n :=
  ⟨Nat.ModEq.add_right_cancel' c, Nat.ModEq.add_right c⟩

/-- Turning by `c` counts and going on by `k` may be done in either order. -/
theorem wrapTimer_add_right_comm (p : Params) (n c k : Nat) :
    wrapTimer p (wrapTimer p (n + c) + k) = wrapTimer p (wrapTimer p (n + k) + c) := by
  rw [wrapTimer_wrapTimer_add, wrapTimer_wrapTimer_add, Nat.add_right_comm]

/-- The count that reaches the alarm is the one that reaches the turned alarm from the turned counter. -/
theorem reaches_turned_iff {p : Params} {now deadline : Nat} (h : deadline ≤ timerTop p) (c : Nat) :
    wrapTimer p (wrapTimer p (now + c) + 1) = wrapTimer p (deadline + c) ↔ wrapTimer p (now + 1) = deadline := by
  rw [wrapTimer_wrapTimer_add, Nat.add_right_comm, wrapTimer_add_right_inj, wrapTimer_of_le h]

/-! ## The turned block, field by field -/

section TurnedBlock

variable (p : Params) (c : Nat) (b : Block)

@[simp] theorem turned_state : (b.turned p c).state = b.state := rfl
@[simp] theorem turned_err : (b.turned p c).err = b.err := rfl
@[simp] theorem turned_period : (b.turned p c).period = b.period := rfl
@[simp] theorem turned_now : (b.turned p c).now = wrapTimer p (b.now + c) := rfl
@[simp] theorem turned_deadline : (b.turned p c).deadline = wrapTimer p (b.deadline + c) := rfl
@[simp] theorem turned_tickPending : (b.turned p c).tickPending = b.tickPending := rfl
@[simp] theorem turned_elapsed : (b.turned p c).elapsed = b.elapsed := rfl
@[simp] theorem turned_cnt10 : (b.turned p c).cnt10 = b.cnt10 := rfl
@[simp] theorem turned_cnt100 : (b.turned p c).cnt100 = b.cnt100 := rfl
@[simp] theorem turned_queue : (b.turned p c).queue = b.queue := rfl
@[simp] theorem turned_drop : (b.turned p c).drop = b.drop := rfl
@[simp] theorem turned_sig (k : Signal) : (b.turned p c).sig k = b.sig k := by cases k <;> rfl
@[simp] theorem statusView_turned : statusView (b.turned p c) = statusView b := rfl
@[simp] theorem dropView_turned : dropView (b.turned p c) = dropView b := rfl
@[simp] theorem countEnabled_turned : countEnabled p (b.turned p c) = countEnabled p b := rfl

/-! ## Turning commutes with every write of the block -/

theorem setSig_turned (k : Signal) (v : Nat) : (b.turned p c).setSig k v = (b.setSig k v).turned p c := by cases k <;> rfl

theorem release_turned (k : Signal) : release p k (b.turned p c) = (release p k b).turned p c := by
  simp only [release, turned_sig, setSig_turned]

theorem divideTen_turned : divideTen p (b.turned p c) = (divideTen p b).turned p c := by
  rcases divideTen_cases p b with ⟨h, e⟩ | ⟨h, e⟩ <;> rw [e, divideTen]
  · rw [← release_turned]; exact if_pos h
  · exact if_neg h

theorem divideHundred_turned : divideHundred p (b.turned p c) = (divideHundred p b).turned p c := by
  rcases divideHundred_cases p b with ⟨h, e⟩ | ⟨h, e⟩ <;> rw [e, divideHundred]
  · rw [← release_turned]; exact if_pos h
  · exact if_neg h

theorem beforeRearm_turned : beforeRearm p (b.turned p c) = (beforeRearm p b).turned p c := by
  have hentry : takeInterrupt (b.turned p c) = (takeInterrupt b).turned p c := rfl
  simp only [beforeRearm, hentry, release_turned, divideTen_turned, divideHundred_turned]

/-- The re-arm compares only `elapsed` with the period, and the new alarm is counted from the old one (41_tick.md R138). -/
theorem rearm_turned (d : Bool) : rearm p d (b.turned p c) = (rearm p d b).turned p c := by
  rcases rearm_cases p d b with ⟨hl, e⟩ | ⟨hl, hd, e⟩ | ⟨hl, hd, e⟩ <;> rw [e, rearm]
  · exact if_pos hl
  · exact (if_neg (Nat.not_le.mpr hl)).trans (if_pos hd)
  · simp [Block.turned, wrapTimer_add_right_comm p b.deadline c, hl, hd]

theorem serviceBlock_turned (d : Bool) : serviceBlock p d (b.turned p c) = (serviceBlock p d b).turned p c := by
  rw [serviceBlock_eq, beforeRearm_turned, rearm_turned, serviceBlock_eq]

theorem failConfig_turned (cause : ErrCode) : failConfig cause (b.turned p c) = (failConfig cause b).turned p c := rfl

/-- INIT arms the first alarm a period after the counter, wherever that stands (40_initialize.md R112). -/
theorem startTimer_turned (period : Nat) : startTimer p period (b.turned p c) = (startTimer p period b).turned p c := by
  simp only [startTimer, Block.turned, wrapTimer_add_right_comm p b.now c]

variable {b} in
/-- Of the counter a TIMER_COUNT step asks only whether it reaches the alarm (41_tick.md R131). -/
theorem timerCount_turned (h : b.deadline ≤ timerTop p) : timerCount p (b.turned p c) = (timerCount p b).turned p c := by
  have hreach := reaches_turned_iff (now := b.now) h c
  have hnow := wrapTimer_add_right_comm p b.now c 1
  rcases timerCount_cases p b with ⟨hp, e⟩ | ⟨hp, hr, hd, e⟩ | ⟨hp, hn, e⟩ <;> rw [e, timerCount]
  · simp [Block.turned, hnow, hp]
  · simp [Block.turned, hnow, hp, hr, ← hd]
  · rw [← hreach] at hn
    simp [Block.turned, hp, hn, ← hnow]

end TurnedBlock

/-! ## Turning commutes with every operation of the machine -/

section TurnedMachine

variable (c : Nat) (s : State)

@[simp] theorem turned_params : (s.turned c).params = s.params := rfl
@[simp] theorem turned_blk : (s.turned c).blk = s.blk.turned s.params c := rfl
@[simp] theorem turned_deviceReady : (s.turned c).deviceReady = s.deviceReady := rfl
@[simp] theorem turned_callers : (s.turned c).callers = s.callers := rfl
@[simp] theorem turned_agenda : (s.turned c).agenda = s.agenda := rfl
@[simp] theorem turned_draws : (s.turned c).draws = s.draws := rfl
@[simp] theorem turned_response : (s.turned c).response = s.response := rfl

theorem respond_turned (status : Status) (value : Word) (data : Option (List Byte)) :
    respond status value data (s.turned c) = (respond status value data s).turned c := rfl

theorem raiseError_turned (status : Status) : raiseError status (s.turned c) = (raiseError status s).turned c := rfl

theorem hold_turned : hold (s.turned c) = (hold s).turned c := rfl

variable {c s} in
theorem checkCtx_turned (i : Instr) {body : State → State} (h : body (s.turned c) = (body s).turned c) :
    checkCtx i body (s.turned c) = (checkCtx i body s).turned c := by
  unfold checkCtx
  split
  · exact h
  · exact raiseError_turned c s .errContext

theorem configure_turned (freq : Word) : configure freq (s.turned c) = (configure freq s).turned c := by
  rcases configure_cases freq s with
    ⟨hu, e⟩ | ⟨hu, hr, e⟩ | ⟨hu, hr, hz, e⟩ | ⟨hu, hr, hl, e⟩ | ⟨hu, hr, hz, hl, e⟩ <;> rw [e]
  · simp [configure, hu, raiseError_turned]
  · simp [configure, hu, hr, raiseError, respond, State.turned, failConfig_turned]
  · simp [configure, hu, hr, hz, raiseError, respond, State.turned, failConfig_turned]
  · have hz : periodOf s.params freq ≠ 0 := by omega
    simp [configure, hu, hr, hz, hl, raiseError, respond, State.turned, failConfig_turned]
  · have hz : periodOf s.params freq ≠ 0 := by omega
    simp [configure, hu, hr, hz, Nat.not_lt.mpr hl, respond, State.turned, startTimer_turned]

theorem enqueue_turned (len : Nat) (payload : List Byte) :
    enqueue len payload (s.turned c) = (enqueue len payload s).turned c := by
  rcases enqueue_cases len payload s with ⟨hfull, e⟩ | ⟨hroom, e⟩ <;> rw [e, enqueue]
  · exact if_pos hfull
  · exact if_neg hroom

theorem dequeue_turned : dequeue (s.turned c) = (dequeue s).turned c := by
  rcases dequeue_cases s with ⟨hq, e⟩ | ⟨r, rest, hq, e⟩ <;> rw [e, dequeue, turned_blk, turned_queue, hq]
  · exact hold_turned c s
  · rfl

theorem takeSignal_turned (k : Signal) : takeSignal k (s.turned c) = (takeSignal k s).turned c := by
  rcases takeSignal_cases k s with ⟨hz, e⟩ | ⟨hz, e⟩ <;> rw [e, takeSignal, turned_blk, turned_sig]
  · exact if_pos hz
  · rw [if_neg hz, setSig_turned]; rfl

/-- No instruction looks at the counter or the alarm but to count on from them. -/
theorem exec_turned (i : Instr) : exec i (s.turned c) = mapNext (State.turned c) (exec i s) := by
  cases i with
  | init ctx freq =>
    rw [exec_init, exec_init, checkCtx_turned _ (configure_turned c s freq)]; rfl
  | tick =>
    cases hp : s.blk.tickPending with
    | true =>
      rw [exec_tick_pending hp, exec_tick_pending (by simpa using hp), turned_blk, turned_params, serviceBlock_turned]
      rfl
    | false =>
      rw [exec_tick_idle hp, exec_tick_idle (by simpa using hp), hold_turned]; rfl
  | enq ctx len payload =>
    by_cases hl : payload.length = len.toNat
    · rw [exec_enq hl, exec_enq hl, enqueue_turned]; rfl
    · simp [exec, execEnq, hl, mapNext]
  | deq ctx =>
    rw [exec_deq, exec_deq, checkCtx_turned _ (dequeue_turned c s)]; rfl
  | take ctx k =>
    rw [exec_take, exec_take, checkCtx_turned _ (takeSignal_turned c s k)]; rfl
  | rdstat ctx =>
    rw [exec_rdstat, exec_rdstat, turned_blk, statusView_turned, respond_turned]; rfl
  | rddrop ctx =>
    rw [exec_rddrop, exec_rddrop, turned_blk, dropView_turned, respond_turned]; rfl

theorem runCommand_turned (who : Issuer) (bytes : List Byte) :
    runCommand who bytes (s.turned c) = mapNext (State.turned c) (runCommand who bytes s) := by
  unfold runCommand
  cases decode who bytes with
  | instr i => exact exec_turned c s i
  | illegal => rfl
  | notACommand => rfl

/-! ## Turning commutes with every turn but a reset -/

theorem deliver_turned (n : Nat) : deliver n (s.turned c) = (deliver n s).turned c := by
  rcases deliver_cases n s with ⟨hr, e⟩ | ⟨r, hr, e⟩
  · rw [e, deliver, turned_response, hr]
  · rw [e, deliver, turned_response, hr]; rfl

theorem deliverOutcome_turned (n : Nat) (o : Host.Outcome State Fault Refusal) :
    deliverOutcome n (mapNext (State.turned c) o) = mapNext (State.turned c) (deliverOutcome n o) := by
  cases o with
  | next u => exact congrArg Host.Outcome.next (deliver_turned c u n)
  | fault r => rfl
  | refused r => rfl

theorem serveCaller_turned (n : Nat) : serveCaller n (s.turned c) = mapNext (State.turned c) (serveCaller n s) := by
  rw [serveCaller, serveCaller, turned_callers]
  cases outstanding s.callers n with
  | none => rfl
  | some bytes => simp only [runCommand_turned, deliverOutcome_turned]

theorem issueCommand_turned (n : Nat) (bytes : List Byte) :
    issueCommand n bytes (s.turned c) = mapNext (State.turned c) (issueCommand n bytes s) := by
  by_cases hc : isCommand bytes = true
  · cases ho : outstanding s.callers n <;> simp [issueCommand, hc, ho, mapNext, State.turned]
  · simp [issueCommand, hc, mapNext]

variable {s} in
theorem countTurn_turned (h : s.blk.deadline ≤ timerTop s.params) :
    countTurn (s.turned c) = (countTurn s).turned c := by
  simp only [countTurn, turned_params, turned_blk, countEnabled_turned, timerCount_turned _ _ h]
  split <;> rfl

variable {s} in
/-- Only a reset sets the counter to a value of its own. -/
theorem runTurn_turned (h : s.blk.deadline ≤ timerTop s.params) {t : Turn} (ht : ∀ draw, t ≠ .reset draw) :
    runTurn t (s.turned c) = mapNext (State.turned c) (runTurn t s) := by
  cases t with
  | count => exact congrArg Host.Outcome.next (countTurn_turned c h)
  | service => exact runCommand_turned c s .alarm (encode .tick)
  | issue n bytes => exact issueCommand_turned c s n bytes
  | serve n => exact serveCaller_turned c s n
  | ready level => rfl
  | reset draw => exact absurd rfl (ht draw)

theorem turnOf_turned : turnOf (s.turned c) = turnOf s := rfl

theorem beginTurn_turned : beginTurn (s.turned c) = (beginTurn s).turned c := by
  rw [beginTurn, beginTurn, turned_agenda]
  cases s.agenda <;> rfl

end TurnedMachine

/-- Settles O54: the turn and its beginning do not look at the block, and each turn but a reset commutes with turning; the
invariant gives the alarm its range. -/
theorem counterOriginIsInvisible : Obligations.CounterOriginIsInvisible := by
  unfold Obligations.CounterOriginIsInvisible
  intro s c hs hreset
  have hdeadline : (beginTurn s).blk.deadline ≤ timerTop (beginTurn s).params := by simpa using hs.block.deadlineRange
  rw [step, step, turnOf_turned, beginTurn_turned]
  exact runTurn_turned c hdeadline (turn_not_reset hreset)

end Sys2Proof.Machine

/-! SUPPORT. The answers of a step and the TICKS directive (30_encoding.md): whose command an answer ends, and what `n` ticks make of
a RUNNING block. -/

namespace Sys2Proof.Machine

/-! ## Whose command an answer ends (30_encoding.md R80, R89) -/

theorem deliver_answered {n : Nat} {s : State} {r : Response} (h : s.response = some r) :
    deliver n s = { s with callers := withoutCaller s.callers n, answers := ⟨n, r⟩ :: s.answers } := by
  simp [deliver, h]

/-- Settles O10: a step that answers is a delivery, and the answer it records names the caller whose command it takes away. -/
theorem eachCommandAnsweredOnce : Obligations.EachCommandAnsweredOnce := by
  unfold Obligations.EachCommandAnsweredOnce
  intro s t h
  rcases step_answers h with hsilent | ⟨n, r, ht, hr, ha⟩
  · exact .inl hsilent
  obtain ⟨m, bytes, u, ho, hu, rfl⟩ := step_answered h hr
  have hcallers : u.callers = s.callers := by simpa using runCommand_callers hu
  have hdeliver := deliver_answered (n := m) (by simpa using hr)
  rw [hdeliver] at ha
  obtain ⟨hanswer, -⟩ := List.cons.inj ha
  obtain rfl : m = n := congrArg Answer.caller hanswer
  refine .inr ⟨m, r, ht, by simp [ho], hr, by rw [hdeliver]; exact ha, ?_, fun j hj => ?_⟩
  · rw [hdeliver, hcallers]
    exact outstanding_withoutCaller_self _ _
  · rw [hdeliver, hcallers]
    exact outstanding_withoutCaller_of_ne _ hj

/-! ## The block at its expiry (41_tick.md R131) -/

/-- The block as the next TICKS service finds it: already pending, or counted on to its alarm. `elapsed` stays, because it is 0
while none is pending (41_tick.md R132). -/
def Block.atExpiry (b : Block) : Block :=
  { b with now := if b.tickPending then b.now else b.deadline, tickPending := true }

theorem atExpiry_of_pending {b : Block} (h : b.tickPending = true) : b.atExpiry = b := by
  rw [Block.atExpiry, if_pos h, ← h]

theorem timerCount_eq_atExpiry {p : Params} {b : Block} (h : b.tickPending = false) (h0 : b.elapsed = 0)
    (hr : b.state = .running) (hd : wrapTimer p (b.now + 1) = b.deadline) : timerCount p b = b.atExpiry := by
  rw [timerCount_of_expiry h hr hd]
  simp [Block.atExpiry, h, h0]

theorem Block.Inv.not_pending_of_not_running {p : Params} {b : Block} (h : b.Inv p) (hr : b.state ≠ .running) :
    b.tickPending = false := by
  simpa using mt h.pendingRunning hr

theorem atExpiry_inv {p : Params} {b : Block} (h : b.Inv p) (hr : b.state = .running) : b.atExpiry.Inv p := by
  cases hp : b.tickPending with
  | true => rwa [atExpiry_of_pending hp]
  | false =>
    have h0 := h.elapsedZero hp
    exact
      { h with
        nowRange := by simpa [Block.atExpiry, hp] using h.deadlineRange
        pendingRunning := fun _ => hr
        elapsedZero := fun _ => h0
        lateness := fun _ _ => by simpa [Block.atExpiry, hp, h0] using (wrapTimer_of_le h.deadlineRange).symm }

/-! ## How many counts bring the expiry (30_encoding.md R100) -/

theorem countsUntilPending_of_pending {p : Params} {b : Block} (h : b.tickPending = true) (fuel : Nat) :
    countsUntilPending p fuel b = some 0 := by
  cases fuel <;> simp [countsUntilPending, h]

/-- A block that is not RUNNING has no armed alarm. -/
theorem countsUntilPending_of_not_running {p : Params} {b : Block} (h : b.tickPending = false) (hr : b.state ≠ .running)
    (fuel : Nat) : countsUntilPending p fuel b = none := by
  cases fuel <;> simp [countsUntilPending, h, hr]

theorem countsUntilPending_succ_of_idle {p : Params} {b : Block} (h : b.tickPending = false) (hr : b.state = .running)
    (fuel : Nat) : countsUntilPending p (fuel + 1) b = (countsUntilPending p fuel (timerCount p b)).map (· + 1) := by
  simp [countsUntilPending, h, hr]

theorem countedOnce_of_idle {s : State} (h : s.blk.tickPending = false) :
    countedOnce s = { s with blk := timerCount s.params s.blk, response := none } := by
  simp [countedOnce, countTurn, countEnabled_of_not_pending _ h]

/-- An idle RUNNING block whose alarm some number of counts reaches comes to its expiry within that number. -/
theorem countsUntilPending_of_remaining {fuel d : Nat} {s : State} (hr : s.blk.state = .running)
    (hp : s.blk.tickPending = false) (h0 : s.blk.elapsed = 0) (h1 : 1 ≤ d) (hd : d ≤ fuel)
    (hreach : wrapTimer s.params (s.blk.now + d) = s.blk.deadline) :
    ∃ k, countsUntilPending s.params fuel s.blk = some k ∧
      countedOnce^[k] s = { s with blk := s.blk.atExpiry, response := none } := by
  induction fuel generalizing s d with
  | zero => omega
  | succ fuel ih =>
    have hcount := countedOnce_of_idle hp
    rw [countsUntilPending_succ_of_idle hp hr]
    by_cases hnext : wrapTimer s.params (s.blk.now + 1) = s.blk.deadline
    · rw [timerCount_eq_atExpiry hp h0 hr hnext] at hcount ⊢
      exact ⟨1, by rw [countsUntilPending_of_pending rfl]; rfl, hcount⟩
    · rw [timerCount_of_idle hp hnext] at hcount ⊢
      have hd1 : d ≠ 1 := fun e => hnext (e ▸ hreach)
      have hreach' : wrapTimer s.params (wrapTimer s.params (s.blk.now + 1) + (d - 1)) = s.blk.deadline := by
        rw [wrapTimer_wrapTimer_add, Nat.add_assoc, Nat.add_sub_cancel' h1, hreach]
      obtain ⟨k, hk, hend⟩ := ih
        (s := { s with blk := { s.blk with now := wrapTimer s.params (s.blk.now + 1) }, response := none })
        hr hp h0 (by omega) (by omega) hreach'
      refine ⟨k + 1, by rw [hk]; rfl, ?_⟩
      rw [Function.iterate_succ_apply, hcount, hend]
      simp [Block.atExpiry, hp]

/-- A whole turn of the counter passes every alarm. -/
theorem exists_remaining {p : Params} {now deadline : Nat} (hn : now ≤ timerTop p) (hd : deadline ≤ timerTop p) :
    ∃ d, 1 ≤ d ∧ d ≤ 2 ^ p.tw ∧ wrapTimer p (now + d) = deadline := by
  have hturn := timerTop_succ p
  by_cases h : now < deadline
  · exact ⟨deadline - now, by omega, by omega, by rw [Nat.add_sub_cancel' h.le, wrapTimer_of_le hd]⟩
  · refine ⟨deadline + 2 ^ p.tw - now, by omega, by omega, ?_⟩
    rw [Nat.add_sub_cancel' (by omega), wrapTimer, Nat.add_mod_right]
    exact wrapTimer_of_le hd

/-! ## One tick of TICKS -/

/-- The machine after one tick of TICKS: on to the expiry and at once the service. -/
def tickedOnce (s : State) : State := servedOnce { s with blk := s.blk.atExpiry }

theorem iterate_tickedOnce_params (n : Nat) (s : State) : (tickedOnce^[n] s).params = s.params := by
  induction n with
  | zero => rfl
  | succ n ih => rw [Function.iterate_succ_apply']; exact ih

theorem iterate_tickedOnce_agenda (n : Nat) (s : State) : (tickedOnce^[n] s).agenda = s.agenda := by
  induction n with
  | zero => rfl
  | succ n ih => rw [Function.iterate_succ_apply']; exact ih

/-- The counts that TICKS takes before its service lead a RUNNING block to the same service. -/
theorem countsUntilPending_of_running {s : State} (hs : s.Inv) (hr : s.blk.state = .running) :
    ∃ k, countsUntilPending s.params (2 ^ s.params.tw) s.blk = some k ∧ servedOnce (countedOnce^[k] s) = tickedOnce s := by
  cases hp : s.blk.tickPending with
  | true => exact ⟨0, countsUntilPending_of_pending hp _, by rw [tickedOnce, atExpiry_of_pending hp]; rfl⟩
  | false =>
    obtain ⟨d, h1, hd, hreach⟩ := exists_remaining hs.block.nowRange hs.block.deadlineRange
    obtain ⟨k, hk, hend⟩ := countsUntilPending_of_remaining hr hp (hs.block.elapsedZero hp) h1 hd hreach
    exact ⟨k, hk, by rw [hend]; rfl⟩

/-- TICKS from a RUNNING block: some counts, a service, and the rest from the machine ticked once. -/
theorem ticksTurns_succ_of_running {s : State} (hs : s.Inv) (hr : s.blk.state = .running) : ∃ k,
    (∀ n, ticksTurns (n + 1) s = (ticksTurns n (tickedOnce s)).map (List.replicate k .count ++ .service :: ·)) ∧
      ∀ more, runTurns (List.replicate k .count ++ .service :: more) s = runTurns more (tickedOnce s) := by
  obtain ⟨k, hk, hserved⟩ := countsUntilPending_of_running hs hr
  have hrun (more) : runTurns (List.replicate k .count ++ .service :: more) s = runTurns more (tickedOnce s) := by
    rw [runTurns_counts, runTurns_service ((countsUntilPending_some hk k le_rfl).mpr rfl), hserved]
  exact ⟨k, fun n => by simp only [ticksTurns, hk, hrun, runTurns_nil], hrun⟩

/-- In a state that meets the invariant a first tick has a run exactly if the block is RUNNING. -/
theorem directiveTurns_ticks_one_eq_none_iff {s : State} (hs : s.Inv) :
    directiveTurns (.ticks 1) s = none ↔ s.blk.state ≠ .running := by
  constructor
  · intro hnone hr
    obtain ⟨k, hturns, -⟩ := ticksTurns_succ_of_running hs hr
    rw [directiveTurns, hturns 0] at hnone
    simp [ticksTurns] at hnone
  · intro hr
    have hp := hs.block.not_pending_of_not_running hr
    simp [directiveTurns, ticksTurns, countsUntilPending_of_not_running hp hr]

/-! ## Ticks that keep the block RUNNING (41_tick.md R138) -/

/-- A machine whose next service arms the alarm again: RUNNING, not late, its device never refusing. -/
structure State.TicksOn (s : State) : Prop where
  inv : s.Inv
  running : s.blk.state = .running
  neverRefused : s.params.rearmMayFail = false
  onTime : s.blk.elapsed < s.blk.period

theorem State.TicksOn.rearmed_after_tick {s : State} (h : s.TicksOn) : (tickedOnce s).blk.state = .running ∧
    (tickedOnce s).blk.deadline = wrapTimer s.params (s.blk.deadline + s.blk.period) := by
  obtain ⟨-, -, hrearmed, hontime⟩ := serviceBlock_rearm_of_inv (atExpiry_inv h.inv.block h.running) rfl
    (deviceDraw { s with blk := s.blk.atExpiry })
  have hr := hontime h.onTime (deviceDraw_of_never h.neverRefused)
  exact hrearmed (by simp [hr])

theorem State.TicksOn.after_tick {s : State} (h : s.TicksOn) : (tickedOnce s).TicksOn := by
  obtain ⟨hr, -⟩ := h.rearmed_after_tick
  have hinv : (tickedOnce s).blk.Inv s.params :=
    serviceBlock_inv h.inv.params (atExpiry_inv h.inv.block h.running) rfl _
  have hzero : (tickedOnce s).blk.elapsed = 0 := serviceBlock_elapsed _ _ _
  exact ⟨⟨h.inv.params, hinv, h.inv.commands, h.inv.oneEach⟩, hr, h.neverRefused, hzero ▸ hinv.periodPositive hr⟩

theorem State.TicksOn.after_ticks {s : State} (h : s.TicksOn) (n : Nat) : (tickedOnce^[n] s).TicksOn := by
  induction n with
  | zero => exact h
  | succ n ih => rw [Function.iterate_succ_apply']; exact ih.after_tick

/-- TICKS `n` has a run of `n` services, which takes the machine through `n` ticks. -/
theorem State.TicksOn.exists_turns {s : State} (h : s.TicksOn) (n : Nat) : ∃ turns, ticksTurns n s = some turns ∧
    turns.count .service = n ∧ runTurns turns s = .next (tickedOnce^[n] s) := by
  induction n generalizing s with
  | zero => exact ⟨[], rfl, rfl, rfl⟩
  | succ n ih =>
    obtain ⟨k, hturns, hrun⟩ := ticksTurns_succ_of_running h.inv h.running
    obtain ⟨more, hmore, hservices, hend⟩ := ih h.after_tick
    refine ⟨List.replicate k .count ++ .service :: more, by rw [hturns, hmore]; rfl, ?_, ?_⟩
    · simp [List.count_replicate, hservices]
    · rw [hrun, hend, Function.iterate_succ_apply]

/-! ## What `n` ticks leave (41_tick.md section 3) -/

/-- What `n` ticks in time make of the block `b₀`. -/
structure Block.TickedBy (p : Params) (b₀ : Block) (n : Nat) (b : Block) : Prop where
  period : b.period = b₀.period
  deadline : b.deadline = wrapTimer p (b₀.deadline + n * b₀.period)
  sigBase : b.sigBase = min (b₀.sigBase + n) p.sigLimit
  idle : b₀.tickPending = false ∨ 1 ≤ n → b.tickPending = false
  now : 1 ≤ n → b₀.tickPending = false ∨ 2 ≤ n → b.now = wrapTimer p (b₀.deadline + (n - 1) * b₀.period)

theorem Block.Inv.tickedBy_zero {p : Params} {b : Block} (h : b.Inv p) : b.TickedBy p 0 b where
  period := rfl
  deadline := by simpa using (wrapTimer_of_le h.deadlineRange).symm
  sigBase := (Nat.min_eq_left (h.sigRange .base)).symm
  idle := by simp
  now := by omega

/-- One more tick: a service that finds none pending falls on the alarm that the ticks before it left. -/
theorem Block.TickedBy.after_tick {b₀ : Block} {n : Nat} {s : State} (h : b₀.TickedBy s.params n s.blk) (hs : s.TicksOn) :
    b₀.TickedBy s.params (n + 1) (tickedOnce s).blk where
  period := (serviceBlock_period _ _ _).trans h.period
  deadline := by
    obtain ⟨-, hd⟩ := hs.rearmed_after_tick
    rw [hd, h.deadline, h.period, wrapTimer_wrapTimer_add, Nat.add_assoc, Nat.succ_mul]
  sigBase := by
    have hbase : (tickedOnce s).blk.sigBase = min (s.blk.sigBase + 1) s.params.sigLimit :=
      serviceBlock_sigBase (atExpiry_inv hs.inv.block hs.running) _
    rw [hbase, h.sigBase]
    omega
  idle := fun _ => serviceBlock_tickPending _ _ _
  now := fun _ hfresh => by
    have hp : s.blk.tickPending = false := h.idle (hfresh.imp_right Nat.le_of_succ_le_succ)
    have hnow : (tickedOnce s).blk.now = s.blk.atExpiry.now := serviceBlock_now _ _ _
    rw [hnow, Nat.add_sub_cancel, ← h.deadline]
    simp [Block.atExpiry, hp]

theorem State.TicksOn.tickedBy {s : State} (h : s.TicksOn) (n : Nat) :
    s.blk.TickedBy s.params n (tickedOnce^[n] s).blk := by
  induction n with
  | zero => exact h.inv.block.tickedBy_zero
  | succ n ih =>
    rw [← iterate_tickedOnce_params n s] at ih ⊢
    rw [Function.iterate_succ_apply']
    exact ih.after_tick (h.after_ticks n)

/-- Settles O56: a first tick has a run exactly from RUNNING, which a pending expiry implies; and `n` ticks are `n` times
`tickedOnce`, each of which leaves the block RUNNING and in time for the next. -/
theorem ticksDirectiveTakesEveryExpiry : Obligations.TicksDirectiveTakesEveryExpiry := by
  unfold Obligations.TicksDirectiveTakesEveryExpiry
  refine ⟨fun s hs => ?_, fun s n hs hr hnever hontime => ?_⟩
  · rw [directiveTurns_ticks_one_eq_none_iff hs]
    exact ⟨fun hr => ⟨hs.block.not_pending_of_not_running hr, hr⟩, fun ⟨_, hr⟩ => hr⟩
  · have hon : s.TicksOn := ⟨hs, hr, hnever, hontime⟩
    obtain ⟨turns, hturns, hservices, hrun⟩ := hon.exists_turns n
    obtain ⟨-, hdeadline, hsig, hidle, hnow⟩ := hon.tickedBy n
    exact ⟨turns, tickedOnce^[n] s, hturns, hservices, hrun, iterate_tickedOnce_agenda n s, (hon.after_ticks n).running,
      hdeadline, hsig, fun h1 => hidle (.inr h1), hnow⟩

end Sys2Proof.Machine
